-- ==== Sys2Proof/Word.lean ====
section
/-!
DEFINITION. Word.lean: the value types of the block (00_scope.md R9).
-/

namespace Sys2Proof

/-- A word: 32 bits, unsigned; `+` wraps modulo 2^32 (R9, R10). -/
abbrev Word := BitVec 32

/-- A byte: 8 bits, unsigned (R9). -/
abbrev Byte := BitVec 8

/-- A command word `C[63:0]` (30_encoding.md R80). -/
abbrev CommandWord := BitVec 64

end Sys2Proof
end

