-- ==== Sys2Proof/Config.lean ====
section
/-!
DEFINITION. Config.lean: the parameters of the block (00_scope.md R7, R8).

Where R7's fixed sizes live: the word width 32 in `Word`; NH = 8 and BLOCK = 64 in the field types of `Engine`; NW = 64 and
NK = 64 in the types of `schedule` and `roundConstants`; ROUNDS = 64 in `compress`; DIGEST = 32 in `digestBytes`; the
64-bit length field in `bytes64`. LAT, HOST_BINDING and the unrolling factor of R8 have no observable effect and occur nowhere;
N_INST is the index of `Machine.Platform`.
-/

namespace Sys2Proof.Config

/-- `MAX_LEN`, the largest legal message length in bytes (R8, R28, decision D6, conflict C1). -/
def maxLen : Nat := 2 ^ 61 - 1

/-- The largest byte count of one UPDATE (R8, R86). -/
def maxUpdateBytes : Nat := 4

end Sys2Proof.Config
end

