-- ==== Sys2Proof/Syntax.lean ====
section
/-!
DEFINITION. Syntax.lean: the five commands of spec/opcode_table.json (30_encoding.md R82).
-/

namespace Sys2Proof

/-- One constructor per row of the opcode table. An UPDATE carries the bytes it absorbs, so its count `NB` is their number. -/
inductive Instr where
  /-- INIT: start a new message (R111). -/
  | init
  /-- UPDATE: absorb the given bytes in order, 1 to 4 of them in a well-formed command (R86, R112). -/
  | update (bytes : List Byte)
  /-- FINAL: pad, compress and make the digest readable (R116). -/
  | final
  /-- RDDIG: read digest word `idx` (R87, R117). -/
  | rddig (idx : Fin 8)
  /-- RDSTAT: read the STATUS word (R118). -/
  | rdstat
  deriving DecidableEq, Repr

/-- The row's name in spec/opcode_table.json. -/
def Instr.mnemonic : Instr → String
  | .init => "INIT"
  | .update _ => "UPDATE"
  | .final => "FINAL"
  | .rddig _ => "RDDIG"
  | .rdstat => "RDSTAT"

end Sys2Proof
end

