-- ==== Sys2Proof/WellFormed.lean ====
section
/-!
DEFINITION. WellFormed.lean: which terms of `Instr` some command word encodes.
-/

namespace Sys2Proof

/-- UPDATE's byte count is 1 to 4 (30_encoding.md R86: "An UPDATE of zero bytes is not encodable"). The index of RDDIG is in
0..7 by its type (R87), and the other commands take no operand (R84). -/
def Instr.wellFormed : Instr → Bool
  | .init => true
  | .update bytes => 1 ≤ bytes.length && bytes.length ≤ Config.maxUpdateBytes
  | .final => true
  | .rddig _ => true
  | .rdstat => true

end Sys2Proof
end

