-- ==== Sys2Proof/Decode.lean ====
section
/-!
DEFINITION. Decode.lean: decoding a 64-bit command word (30_encoding.md R80 to R90), the encoder (R91, R93), and the opcode table.
-/

namespace Sys2Proof

/-! ## Fields (R80) -/

/-- `OP = C[63:60]` (R85). -/
def opField (c : CommandWord) : BitVec 4 := c.extractLsb' 60 4

/-- `ARG = C[59:56]`. -/
def argField (c : CommandWord) : BitVec 4 := c.extractLsb' 56 4

/-- `RES = C[55:32]`. -/
def resField (c : CommandWord) : BitVec 24 := c.extractLsb' 32 24

/-- `DATA = C[31:0]`. -/
def dataField (c : CommandWord) : BitVec 32 := c.extractLsb' 0 32

/-- The four byte lanes of DATA, first byte in `DATA[31:24]` (R86, decision D5). -/
def dataLanes (data : BitVec 32) : List Byte :=
  [data.extractLsb' 24 8, data.extractLsb' 16 8, data.extractLsb' 8 8, data.extractLsb' 0 8]

/-- `NB = zext(ARG[1:0]) + 1`, in 1..4 (R86). -/
def byteCountField (arg : BitVec 4) : Nat := (arg.extractLsb' 0 2).toNat + 1

/-! ## The decoder (R89) -/

/-- Why a word is ILLEGAL. R89 has one ILLEGAL; the names tell which of its checks failed and nothing depends on them. -/
inductive IllegalReason where
  /-- `RES` is not zero (R83). -/
  | reservedBitsSet
  /-- `OP` is 0x0 or 0x6..0xF (R82, R90). -/
  | reservedOpcode
  /-- An `ARG` or `DATA` bit that must be zero is set (R84, R86, R87). -/
  | operandBitsSet
  deriving DecidableEq, Repr

/-- The result of decoding: a command or ILLEGAL (R89). -/
inductive Decoded where
  | command (i : Instr)
  | illegal (why : IllegalReason)
  deriving DecidableEq, Repr

/-- Decoding is total on every 64-bit word (R89). -/
def decode (c : CommandWord) : Decoded :=
  let op := opField c
  let arg := argField c
  let data := dataField c
  if resField c ≠ 0 then .illegal .reservedBitsSet
  else if op = 0x1#4 then
    if arg = 0 ∧ data = 0 then .command .init else .illegal .operandBitsSet
  else if op = 0x2#4 then
    if arg.extractLsb' 2 2 = 0 then .command (.update ((dataLanes data).take (byteCountField arg)))
    else .illegal .operandBitsSet
  else if op = 0x3#4 then
    if arg = 0 ∧ data = 0 then .command .final else .illegal .operandBitsSet
  else if op = 0x4#4 then
    if arg.extractLsb' 3 1 = 0 ∧ data = 0 then .command (.rddig (arg.extractLsb' 0 3).toFin)
    else .illegal .operandBitsSet
  else if op = 0x5#4 then
    if arg = 0 ∧ data = 0 then .command .rdstat else .illegal .operandBitsSet
  else .illegal .reservedOpcode

/-! ## The encoder (R80, R91) -/

/-- A command word from its fields, with `RES = 0` (R80, R83). -/
def commandWord (op arg : BitVec 4) (data : BitVec 32) : CommandWord :=
  op ++ arg ++ (0 : BitVec 24) ++ data

/-- DATA from the bytes of an UPDATE: first byte in `DATA[31:24]`, every lane past the last byte zero (R86, R93). -/
def packLanes (bytes : List Byte) : BitVec 32 :=
  bytes.getD 0 0 ++ bytes.getD 1 0 ++ bytes.getD 2 0 ++ bytes.getD 3 0

/-- The canonical word of a well-formed command (R91, R93). -/
def encode : Instr → CommandWord
  | .init => commandWord 0x1 0 0
  | .update bytes => commandWord 0x2 (BitVec.ofNat 4 (bytes.length - 1)) (packLanes bytes)
  | .final => commandWord 0x3 0 0
  | .rddig idx => commandWord 0x4 (BitVec.ofNat 4 idx) 0
  | .rdstat => commandWord 0x5 0 0

/-- The word with every ignored lane of an UPDATE written as zero; any other word is itself (R93). -/
def canonical (c : CommandWord) : CommandWord :=
  if opField c = 0x2#4 then
    c &&& (BitVec.allOnes 64 <<< (8 * (4 - byteCountField (argField c))))
  else c

/-! ## The opcode table -/

/-- One row of spec/opcode_table.json: a word is the row's when its bits under `mask` are `pattern`. -/
structure TableRow where
  mnemonic : String
  pattern : CommandWord
  mask : CommandWord
  deriving DecidableEq, Repr

/-- The five rows of spec/opcode_table.json, in its order. -/
def opcodeTable : List TableRow :=
  [ ⟨"INIT",   0x1000000000000000, 0xFFFFFFFFFFFFFFFF⟩,
    ⟨"UPDATE", 0x2000000000000000, 0xFCFFFFFF00000000⟩,
    ⟨"FINAL",  0x3000000000000000, 0xFFFFFFFFFFFFFFFF⟩,
    ⟨"RDDIG",  0x4000000000000000, 0xF8FFFFFFFFFFFFFF⟩,
    ⟨"RDSTAT", 0x5000000000000000, 0xFFFFFFFFFFFFFFFF⟩ ]

/-- The row's test on a word. -/
def TableRow.matches (r : TableRow) (c : CommandWord) : Bool := c &&& r.mask == r.pattern

/-! ## The table's numbering of bits -/

/-- The command word whose low `nbits` bits are those of `w` and whose other bits are zero. The block's command word is one
64-bit word (R81), so the table's bit 0 is `C[0]`. -/
def tableWord (nbits w : Nat) : CommandWord := BitVec.ofNat 64 (w % 2 ^ nbits)

/-- The instruction the decoder reads from the word the opcode table numbers as `w`. -/
def decodeTableWord (nbits w : Nat) : Option Instr :=
  match decode (tableWord nbits w) with
  | .command i => some i
  | .illegal _ => none

end Sys2Proof
end

