-- ==== Sys2Proof/Machine/Bits.lean ====
section
/-!
DEFINITION. Machine/Bits.lean: shifts and rotations (00_scope.md R12) and the big-endian conversions (R13).
-/

namespace Sys2Proof.Machine

/-- `shr(x, n)`: logical right shift with zero fill (R12). -/
def shr (x : Word) (n : Nat) : Word := x >>> n

/-- `rotr(x, n)`: rotate right within 32 bits, for `n` in 1..31 (R12). -/
def rotr (x : Word) (n : Nat) : Word := shr x n ||| (x <<< (32 - n))

/-- `be32(b0, b1, b2, b3)`: a word from four bytes, `b0` most significant (R13). -/
def be32 (b0 b1 b2 b3 : Byte) : Word := b0 ++ b1 ++ b2 ++ b3

/-- `bytes32(w)`: the four bytes of a word, most significant first (R13). -/
def bytes32 (w : Word) : List Byte :=
  [w.extractLsb' 24 8, w.extractLsb' 16 8, w.extractLsb' 8 8, w.extractLsb' 0 8]

/-- `bytes64(d)`: the eight bytes of a double word, most significant first (R13). -/
def bytes64 (d : BitVec 64) : Vector Byte 8 :=
  Vector.ofFn fun k => d.extractLsb' (56 - 8 * k.val) 8

end Sys2Proof.Machine
end

