-- ==== Sys2Proof/Machine/Scheduler.lean ====
section
/-!
DEFINITION. Machine/Scheduler.lean: the message scheduler (41_message_scheduler.md R150 to R155). `W` is the local result of one call,
never state (R154).
-/

namespace Sys2Proof.Machine

/-- A 64-byte unit of input (00_scope.md R19). -/
abbrev Block := Vector Byte 64

/-- `σ0` (R150). -/
def smallSigma0 (x : Word) : Word := rotr x 7 ^^^ rotr x 18 ^^^ shr x 3

/-- `σ1` (R151). -/
def smallSigma1 (x : Word) : Word := rotr x 17 ^^^ rotr x 19 ^^^ shr x 10

/-- Word `t` of a block, its lowest-indexed byte most significant (R153). -/
def blockWord (block : Block) (t : Fin 16) : Word :=
  be32 block[4 * t.val] block[4 * t.val + 1] block[4 * t.val + 2] block[4 * t.val + 3]

/-- `W[0 .. 15+n]`: the schedule after the first `n` steps of R152's second loop. Step `n` writes `W[t]` for `t = 16 + n`,
reading `W[t-2]`, `W[t-7]`, `W[t-15]` and `W[t-16]`. -/
def scheduleUpTo (block : Block) : (n : Nat) → Vector Word (16 + n)
  | 0 => Vector.ofFn (blockWord block)
  | n + 1 =>
    let W := scheduleUpTo block n
    W.push (smallSigma1 W[14 + n] + W[9 + n] + smallSigma0 W[1 + n] + W[n])

/-- `Schedule(block)`: the 64 words `W[0..63]` (R152). -/
def schedule (block : Block) : Vector Word 64 := scheduleUpTo block 48

end Sys2Proof.Machine
end

