-- ==== Sys2Proof/Machine/Compression.lean ====
section
/-!
DEFINITION. Machine/Compression.lean: the compression function (42_compression.md R170 to R177).
-/

namespace Sys2Proof.Machine

/-- The digest state `H[0..7]` (10_state.md R20). -/
abbrev DigestState := Vector Word 8

/-- `Σ0` (R170). -/
def bigSigma0 (x : Word) : Word := rotr x 2 ^^^ rotr x 13 ^^^ rotr x 22

/-- `Σ1` (R171). -/
def bigSigma1 (x : Word) : Word := rotr x 6 ^^^ rotr x 11 ^^^ rotr x 25

/-- `Ch`, choose (R172). -/
def choose (x y z : Word) : Word := (x &&& y) ^^^ (~~~x &&& z)

/-- `Maj`, majority (R173). -/
def majority (x y z : Word) : Word := (x &&& y) ^^^ (x &&& z) ^^^ (y &&& z)

/-- The working variables `a..h`, alive during one compression only (10_state.md R35). -/
structure Working where
  (a b c d e f g h : Word)
  deriving DecidableEq, Repr

/-- One round: all eight new values come from the old ones (R174). -/
def roundStep (v : Working) (Kt Wt : Word) : Working :=
  let T1 := v.h + bigSigma1 v.e + choose v.e v.f v.g + Kt + Wt
  let T2 := bigSigma0 v.a + majority v.a v.b v.c
  ⟨T1 + T2, v.a, v.b, v.c, v.d + T1, v.e, v.f, v.g⟩

/-- The working variables after rounds `t = 0 .. n-1` (R175's loop). -/
def roundsUpTo (W : Vector Word 64) (v : Working) : (n : Nat) → n ≤ 64 → Working
  | 0, _ => v
  | n + 1, h => roundStep (roundsUpTo W v n (by omega)) roundConstants[n] W[n]

/-- `(a,b,c,d,e,f,g,h) = (Hin[0], ..., Hin[7])` (R175). -/
def Working.ofDigestState (H : DigestState) : Working :=
  ⟨H[0], H[1], H[2], H[3], H[4], H[5], H[6], H[7]⟩

/-- `Compress(Hin, block)` (R175): exactly 64 rounds, one at a time (the rolled form of R176), then the eight modular sums. -/
def compress (Hin : DigestState) (block : Block) : DigestState :=
  let v := roundsUpTo (schedule block) (Working.ofDigestState Hin) 64 (Nat.le_refl 64)
  #v[Hin[0] + v.a, Hin[1] + v.b, Hin[2] + v.c, Hin[3] + v.d,
     Hin[4] + v.e, Hin[5] + v.f, Hin[6] + v.g, Hin[7] + v.h]

end Sys2Proof.Machine
end

