-- ==== Sys2Proof/Machine/State.lean ====
section
/-!
DEFINITION. Machine/State.lean: the state of one engine instance (10_state.md R20 to R36, R43), its channel to the host, the reset state
(R44), and the reasons a step can stop.
-/

namespace Sys2Proof.Machine

/-- `PHASE` (R30). The code 3 is never held, and the type excludes it. -/
inductive Phase where
  | absorbing
  | finalized
  | faulted
  deriving DecidableEq, Repr

/-- `CAUSE` (R31, 60_exceptions.md R230). The codes 4..15 are never held, and the type excludes them. -/
inductive Cause where
  /-- NONE. -/
  | noFault
  /-- E_ILLEGAL: the command word does not decode. -/
  | eIllegal
  /-- E_STATE: the command is not allowed in the current phase. -/
  | eState
  /-- E_LENOVF: the total length would pass MAX_LEN. -/
  | eLenOvf
  deriving DecidableEq, Repr

/-- The block buffer `BUF[0..63]`; `none` is an unwritten byte (R24, R26, R43). -/
abbrev BlockBuffer := Vector (Option Byte) 64

/-- All 64 bytes unwritten. -/
def unwrittenBuffer : BlockBuffer := Vector.replicate 64 none

/-- The state of one engine instance: R43's record. `W`, `a..h` and `t` are locals of `compress`, not fields (R34, R35, R36,
R43). -/
structure Engine where
  /-- `H[0..7]`, the digest state (R20). -/
  h : DigestState
  /-- `BUF[0..63]` (R24). -/
  buf : BlockBuffer
  /-- `FILL`, 0..63 between commands (R25). -/
  fill : Nat
  /-- `LEN`, the bytes absorbed since the last INIT, 0..MAX_LEN (R27, R28). -/
  len : Nat
  /-- `PHASE` (R30). -/
  phase : Phase
  /-- `CAUSE` (R31). -/
  cause : Cause
  deriving DecidableEq, Repr

/-- The values of R44, after hardware reset (70_reset_and_hazards.md R270). -/
def Engine.reset : Engine :=
  { h := initialHash, buf := unwrittenBuffer, fill := 0, len := 0, phase := .absorbing, cause := .noFault }

/-- The status half of a response (00_scope.md R17). -/
inductive ResponseStatus where
  | ok
  | fault
  deriving DecidableEq, Repr

/-- A response `(st, val)` (R17, decision D12). -/
structure Response where
  st : ResponseStatus
  val : Word
  deriving DecidableEq, Repr

/-- What the host does to an instance (40_hasher_core.md R123). -/
inductive HostAction where
  /-- Issue a command word. -/
  | command (c : CommandWord)
  /-- Assert hardware reset between commands (70_reset_and_hazards.md R270, R271). -/
  | hardwareReset
  deriving DecidableEq, Repr

/-- One instance and its channel. `engine` is the block's state. `pending` and `responses` are the MODEL's own fields (log
entries 1 and 2): what the host will still do, next first (R41 "the position in that sequence is kept by the host"), and what the
block has answered, oldest first (R279 "one response per command"). -/
structure State where
  engine : Engine
  pending : List HostAction
  responses : List Response
  deriving DecidableEq, Repr

/-- The machine right after hardware reset, before the host has done anything (R44, R270, R272). -/
def State.reset : State := { engine := Engine.reset, pending := [], responses := [] }

/-- Why the MODEL stops. None of these is a fault of the block: the block's faults (R230) are next states. No state that meets
`Engine.Valid` reaches one (log entries 4 and 5). -/
inductive Fault where
  /-- A compression would read an unwritten byte of BUF. Raised by UPDATE and FINAL. Safe: section 2 of
  93_implementation_defined.md asks for it ("A model that would read one must `fault`, never pick a value"). -/
  | unwrittenByteRead
  /-- FILL is 64 or more where BUF[FILL] is to be written. Raised by UPDATE and FINAL. Safe: R25 excludes it. -/
  | fillOutOfRange
  /-- `8 * LEN` does not fit the 64-bit length field. Raised by FINAL. Safe: R13 requires it to fit and R28 makes it fit. -/
  | lengthFieldOverflow
  deriving DecidableEq, Repr

/-- Why the model gives no meaning. -/
inductive Refusal where
  /-- The instruction has no meaning yet. Only a refused arm of `exec` raises it; no arm of this model is one. Safe. -/
  | notModelled (mnemonic : String)
  deriving DecidableEq, Repr

/-- The outcome of a step of this machine. -/
abbrev StepOutcome := Host.Outcome State Fault Refusal

end Sys2Proof.Machine
end

