-- ==== Sys2Proof/Machine/Flags.lean ====
section
/-!
DEFINITION. Machine/Flags.lean: the status the block holds (10_state.md R30 to R33). It has no condition codes (R32).
-/

namespace Sys2Proof.Machine

/-- The code of PHASE, bits 1:0 of STATUS (R30). -/
def Phase.code : Phase → BitVec 2
  | .absorbing => 0
  | .finalized => 1
  | .faulted => 2

/-- The code of CAUSE, bits 7:4 of STATUS (R31, R230). -/
def Cause.code : Cause → BitVec 4
  | .noFault => 0
  | .eIllegal => 1
  | .eState => 2
  | .eLenOvf => 3

/-- The STATUS word, `zext_32(CAUSE) * 2^4 + zext_32(PHASE_code)` (R33, R118). -/
def Engine.statusWord (e : Engine) : Word :=
  e.cause.code.setWidth 32 * 16#32 + e.phase.code.setWidth 32

end Sys2Proof.Machine
end

