-- ==== Sys2Proof/Machine/Operands.lean ====
section
/-!
DEFINITION. Machine/Operands.lean: the operand forms. A command names no register and no address: it has a byte list (UPDATE) or a
word index (RDDIG), and uses the state of its instance (30_encoding.md R88).
-/

namespace Sys2Proof.Machine

/-- `NB`, the number of bytes an UPDATE carries (R86, R112). -/
def byteCount (bytes : List Byte) : Nat := bytes.length

/-- The length check of UPDATE, `LEN + NB > MAX_LEN` (40_hasher_core.md R114). -/
def Engine.wouldOverflow (e : Engine) (bytes : List Byte) : Bool :=
  Config.maxLen < e.len + byteCount bytes

/-- `H[IDX]`, what RDDIG reads (R117). -/
def Engine.digestWord (e : Engine) (idx : Fin 8) : Word := e.h[idx]

end Sys2Proof.Machine
end

