-- ==== Sys2Proof/Machine/Ops.lean ====
section
/-!
DEFINITION. Machine/Ops.lean: the operations the commands share: responses, fault entry and the return from a fault
(60_exceptions.md R231, R234, R236), and the block buffer (40_hasher_core.md R113).
-/

namespace Sys2Proof.Machine

/-! ## Responses (00_scope.md R17) -/

/-- `OK(val)`. -/
def okResponse (val : Word) : Response := ⟨.ok, val⟩

/-- `FAULT(0)`. -/
def faultResponse : Response := ⟨.fault, 0⟩

/-- End the command with response `r` (R17, R70). -/
def State.respond (s : State) (r : Response) : State :=
  { s with responses := s.responses ++ [r] }

/-- Replace the engine and leave the channel as it is. -/
def State.withEngine (s : State) (e : Engine) : State := { s with engine := e }

/-! ## Fault entry and return -/

/-- `PHASE` and `CAUSE` after `raise Fault(code)`: an instance already FAULTED keeps its first cause, and `H`, `BUF`, `FILL`
and `LEN` are not changed (R231, R237). -/
def Engine.enterFault (code : Cause) (e : Engine) : Engine :=
  if e.phase ≠ .faulted then { e with phase := .faulted, cause := code } else e

/-- `raise Fault(code)`: fault entry and the response FAULT(0) (R16, R231). -/
def raiseFault (code : Cause) (s : State) : State :=
  (s.withEngine (s.engine.enterFault code)).respond faultResponse

/-- A decodable command other than INIT and RDSTAT in FAULTED: FAULT(0), nothing changed (R110, R234). -/
def rejectCommand (s : State) : State := s.respond faultResponse

/-- The instance INIT leaves, and the return from a fault: nothing is restored (R111, R236). -/
def initEngine : Engine :=
  { h := initialHash, buf := unwrittenBuffer, fill := 0, len := 0, phase := .absorbing, cause := .noFault }

/-- A command word that does not decode (R89, R232). -/
def execIllegal (s : State) : StepOutcome := .next (raiseFault .eIllegal s)

/-- Hardware reset, taken between commands: the state of R44 and no response (R123, R270, R271). -/
def hardwareReset (s : State) : State := s.withEngine Engine.reset

/-! ## The block buffer -/

/-- The 64 bytes of a buffer, when every one has been written (R26). -/
def wholeBlock (buf : BlockBuffer) : Option Block :=
  if h : ∀ j : Fin 64, buf[j].isSome then some (Vector.ofFn fun j => buf[j].get (h j)) else none

/-- `Compress(H, BUF[0..63])`; a buffer with an unwritten byte has no block to compress (R26, R175). -/
def compressBuffer (H : DigestState) (buf : BlockBuffer) : Except Fault DigestState :=
  match wholeBlock buf with
  | some block => .ok (compress H block)
  | none => .error .unwrittenByteRead

/-- `AbsorbByte(b)` (R113). -/
def absorbByte (b : Byte) (e : Engine) : Except Fault Engine :=
  if hFill : e.fill < 64 then
    let buf := e.buf.set e.fill (some b)
    if e.fill + 1 = 64 then
      match compressBuffer e.h buf with
      | .ok H => .ok { e with h := H, buf := unwrittenBuffer, fill := 0, len := e.len + 1 }
      | .error f => .error f
    else .ok { e with buf := buf, fill := e.fill + 1, len := e.len + 1 }
  else .error .fillOutOfRange

/-- `AbsorbByte` of each byte in order (R112's loop). -/
def absorbBytes : List Byte → Engine → Except Fault Engine
  | [], e => .ok e
  | b :: bs, e =>
    match absorbByte b e with
    | .ok e' => absorbBytes bs e'
    | .error f => .error f

end Sys2Proof.Machine
end

