-- ==== Sys2Proof/Machine/Padding.lean ====
section
/-!
DEFINITION. Machine/Padding.lean: the padding/finalizer (43_padding_finalizer.md R200 to R205).
-/

namespace Sys2Proof.Machine

/-- `z = (55 - L) mod 64`, the number of zero bytes (R200). -/
def zeroCount (L : Nat) : Nat := ((55 - (L : Int)) % 64).toNat

/-- `pad(L)`, the padding of a message of `L` bytes, for `L <= MAX_LEN` (R200). -/
def pad (L : Nat) : List Byte :=
  [0x80] ++ List.replicate (zeroCount L) 0 ++ (bytes64 (BitVec.ofNat 64 (8 * L))).toList

/-- `for j in lo .. 55` or `lo .. 63: BUF[j] <- 0x00`, with `hi` the first index left alone (R201). -/
def zeroFill (buf : BlockBuffer) (lo hi : Nat) : BlockBuffer :=
  Vector.ofFn fun j => if lo ≤ j.val ∧ j.val < hi then some 0 else buf[j]

/-- `for k in 0 .. 7: BUF[56 + k] <- bytes64(bitlen)[k]` (R201). -/
def writeLength (buf : BlockBuffer) (bitlen : BitVec 64) : BlockBuffer :=
  Vector.ofFn fun j => if h : 56 ≤ j.val then some (bytes64 bitlen)[j.val - 56] else buf[j]

/-- The last block of Finalize: zeros from `fill` to 55, the length field, one compression, FILL <- 0 (R201). -/
def finalizeLastBlock (bitlen : BitVec 64) (H : DigestState) (buf : BlockBuffer) (fill : Nat) (e : Engine) :
    Except Fault Engine :=
  let padded := writeLength (zeroFill buf fill 56) bitlen
  match compressBuffer H padded with
  | .ok H' => .ok { e with h := H', buf := padded, fill := 0 }
  | .error f => .error f

/-- `Finalize()` (R201): one block, or two when the terminator leaves no room for the length field (R202). -/
def finalize (e : Engine) : Except Fault Engine :=
  if hFill : e.fill < 64 then
    if 8 * e.len < 2 ^ 64 then
      let bitlen := BitVec.ofNat 64 (8 * e.len)
      let buf := e.buf.set e.fill (some 0x80)
      let fill := e.fill + 1
      if 56 < fill then
        let full := zeroFill buf fill 64
        match compressBuffer e.h full with
        | .ok H => finalizeLastBlock bitlen H full 0 e
        | .error f => .error f
      else finalizeLastBlock bitlen e.h buf fill e
    else .error .lengthFieldOverflow
  else .error .fillOutOfRange

end Sys2Proof.Machine
end

