-- ==== Sys2Proof/Machine/HasherCore.lean ====
section
/-!
DEFINITION. Machine/HasherCore.lean: the meaning of each command (40_hasher_core.md R111 to R118). The FAULTED check that R110 makes
before UPDATE, FINAL and RDDIG is each one's first line.
-/

namespace Sys2Proof.Machine

/-- INIT, accepted in every phase (R111). -/
def execInit (s : State) : StepOutcome :=
  .next ((s.withEngine initEngine).respond (okResponse 0))

/-- UPDATE (R112, R114): the checks come before any byte is absorbed. -/
def execUpdate (bytes : List Byte) (s : State) : StepOutcome :=
  if s.engine.phase = .faulted then .next (rejectCommand s)
  else if s.engine.phase ≠ .absorbing then .next (raiseFault .eState s)
  else if s.engine.wouldOverflow bytes then .next (raiseFault .eLenOvf s)
  else
    match absorbBytes bytes s.engine with
    | .ok e => .next ((s.withEngine e).respond (okResponse 0))
    | .error f => .fault f

/-- FINAL (R116). -/
def execFinal (s : State) : StepOutcome :=
  if s.engine.phase = .faulted then .next (rejectCommand s)
  else if s.engine.phase ≠ .absorbing then .next (raiseFault .eState s)
  else
    match finalize s.engine with
    | .ok e => .next ((s.withEngine { e with phase := .finalized }).respond (okResponse 0))
    | .error f => .fault f

/-- RDDIG (R117). -/
def execRddig (idx : Fin 8) (s : State) : StepOutcome :=
  if s.engine.phase = .faulted then .next (rejectCommand s)
  else if s.engine.phase ≠ .finalized then .next (raiseFault .eState s)
  else .next (s.respond (okResponse (s.engine.digestWord idx)))

/-- RDSTAT, accepted in every phase (R118). -/
def execRdstat (s : State) : StepOutcome :=
  .next (s.respond (okResponse s.engine.statusWord))

end Sys2Proof.Machine
end

