-- ==== Sys2Proof/Machine/Step.lean ====
section
/-!
DEFINITION. Machine/Step.lean: one host step (40_hasher_core.md R110).
-/

namespace Sys2Proof.Machine

/-- Take one command word to completion: decoding comes first (R110, R233). -/
def issueCommand (c : CommandWord) (s : State) : StepOutcome :=
  match decode c with
  | .illegal _ => execIllegal s
  | .command i => exec i s

/-- The host's next action is consumed once, in order (R41, R70). With nothing pending the idle instance keeps its state (R246,
log entry 3). -/
def step (s : State) : Host.Outcome State Fault Refusal :=
  match s.pending with
  | [] => .next s
  | .command c :: rest => issueCommand c { s with pending := rest }
  | .hardwareReset :: rest => .next (hardwareReset { s with pending := rest })

/-- The host issues next the command word the opcode table numbers as `w` (log entry 1). -/
def State.withFetchWord (s : State) (nbits w : Nat) : State :=
  { s with pending := .command (tableWord nbits w) :: s.pending }

end Sys2Proof.Machine
end

