-- ==== Sys2Proof/Machine/Assembler.lean ====
section
/-!
DEFINITION. Machine/Assembler.lean: the command syntax (30_encoding.md R91), the pseudo-instructions (R92) and the canonical
disassembly (R93). Text is a list of characters, one line at a time. PRESUMED and DESIGN CHOICE: R91 and R92 do not fix the lexical
details; log entry 12 lists the choices.
-/

namespace Sys2Proof.Machine

/-! ## Lines and their expansion -/

/-- A line of assembler: a command of R91 or a pseudo-instruction of R92. -/
inductive AsmLine where
  | command (i : Instr)
  | new
  | reset
  | absorb (m : List Byte)
  | digest
  deriving DecidableEq, Repr

/-- Four bytes at a time: piece `k` is `m[4k] .. m[min(4k+3, len(m)-1)]` (R92). -/
def updateChunks : List Byte → List (List Byte)
  | [] => []
  | [b0] => [[b0]]
  | [b0, b1] => [[b0, b1]]
  | [b0, b1, b2] => [[b0, b1, b2]]
  | b0 :: b1 :: b2 :: b3 :: rest => [b0, b1, b2, b3] :: updateChunks rest

/-- The commands a line expands to (R92). -/
def AsmLine.expand : AsmLine → List Instr
  | .command i => [i]
  | .new => [.init]
  | .reset => [.init]
  | .absorb m => (updateChunks m).map .update
  | .digest => .final :: (List.finRange 8).map .rddig

/-- The words of a line (R91, R93). -/
def AsmLine.words (l : AsmLine) : List CommandWord := l.expand.map encode

/-! ## Lexing -/

/-- A token of a line. -/
inductive Token where
  | word (cs : List Char)
  | comma
  | char (c : Char)
  | string (cs : List Char)
  deriving DecidableEq, Repr

/-- Where the lexer stands in the line. -/
inductive LexMode where
  | gap
  | inWord (seenReversed : List Char)
  | quoteOpen
  | quoteClose (c : Char)
  | inString (seenReversed : List Char)
  deriving DecidableEq, Repr

/-- What one character does: tokens and the next mode, the end of the line (a comment), or no line of the syntax. -/
inductive LexStep where
  | go (ts : List Token) (mode : LexMode)
  | comment (ts : List Token)
  | bad
  deriving DecidableEq, Repr

/-- A letter or a digit, ASCII. -/
def isWordChar (c : Char) : Bool :=
  (0x30 ≤ c.toNat && c.toNat ≤ 0x39) || (0x41 ≤ c.toNat && c.toNat ≤ 0x5A) || (0x61 ≤ c.toNat && c.toNat ≤ 0x7A)

/-- Between tokens. `;` starts a comment and an apostrophe a quoted character (R91). DESIGN CHOICE (log entry 12): a double quote, code
0x22, starts ABSORB's quoted string; R92 says only "a quoted string". -/
def lexGap (c : Char) : LexStep :=
  if c = ';' then .comment []
  else if c = ' ' ∨ c = '\t' then .go [] .gap
  else if c = ',' then .go [.comma] .gap
  else if c.toNat = 0x27 then .go [] .quoteOpen
  else if c.toNat = 0x22 then .go [] (.inString [])
  else if isWordChar c then .go [] (.inWord [c])
  else .bad

/-- Put a finished token before what the next character does. -/
def LexStep.after (t : Token) : LexStep → LexStep
  | .go ts mode => .go (t :: ts) mode
  | .comment ts => .comment (t :: ts)
  | .bad => .bad

/-- One character of a line. DESIGN CHOICE (log entry 12): an apostrophe quotes exactly one character, a string runs to the next double
quote, and neither has escapes. -/
def lexChar (mode : LexMode) (c : Char) : LexStep :=
  match mode with
  | .gap => lexGap c
  | .inWord seen => if isWordChar c then .go [] (.inWord (c :: seen)) else (lexGap c).after (.word seen.reverse)
  | .quoteOpen => .go [] (.quoteClose c)
  | .quoteClose q => if c.toNat = 0x27 then .go [.char q] .gap else .bad
  | .inString seen =>
    if c.toNat = 0x22 then .go [.string seen.reverse] .gap else .go [] (.inString (c :: seen))

/-- The tokens of a line. -/
def lexFrom (mode : LexMode) : List Char → Option (List Token)
  | [] =>
    match mode with
    | .gap => some []
    | .inWord seen => some [.word seen.reverse]
    | .quoteOpen | .quoteClose _ | .inString _ => none
  | c :: cs =>
    match lexChar mode c with
    | .go ts mode' => (lexFrom mode' cs).map (ts ++ ·)
    | .comment ts => some ts
    | .bad => none

/-! ## Parsing -/

/-- The value of a digit in a base up to 16. -/
def digitValue (base : Nat) (c : Char) : Option Nat :=
  let v :=
    if 0x30 ≤ c.toNat ∧ c.toNat ≤ 0x39 then c.toNat - 0x30
    else if 0x41 ≤ c.toNat ∧ c.toNat ≤ 0x46 then c.toNat - 0x41 + 10
    else if 0x61 ≤ c.toNat ∧ c.toNat ≤ 0x66 then c.toNat - 0x61 + 10
    else base
  if v < base then some v else none

/-- The number a digit list writes, after the digits already read. -/
def digitsValue (base : Nat) : Nat → List Char → Option Nat
  | acc, [] => some acc
  | acc, c :: cs => (digitValue base c).bind fun d => digitsValue base (acc * base + d) cs

/-- A number in decimal or `0x` hex (R91). -/
def numberValue : List Char → Option Nat
  | [] => none
  | '0' :: 'x' :: ds => if ds = [] then none else digitsValue 16 0 ds
  | ds => digitsValue 10 0 ds

/-- The ASCII code of a character (R91, R92). -/
def asciiByte (c : Char) : Option Byte :=
  if c.toNat < 128 then some (BitVec.ofNat 8 c.toNat) else none

/-- A byte operand: a number 0..255 or a quoted character (R91). -/
def byteOperand : Token → Option Byte
  | .word cs => (numberValue cs).bind fun n => if n < 256 then some (BitVec.ofNat 8 n) else none
  | .char c => asciiByte c
  | .comma => none
  | .string _ => none

/-- One or more byte operands, separated by commas. -/
def byteOperands : List Token → Option (List Byte)
  | [t] => (byteOperand t).map fun b => [b]
  | t :: .comma :: rest => (byteOperand t).bind fun b => (byteOperands rest).map (b :: ·)
  | _ => none

/-- The operand of ABSORB: a quoted string of ASCII characters, or a list of byte operands (R92). DESIGN CHOICE (log entry 12): the
string stands in double quotes, and the list has at least one operand. -/
def messageOperand : List Token → Option (List Byte)
  | [.string cs] => cs.mapM asciiByte
  | ts => byteOperands ts

/-- The operand of RDDIG: an index 0..7 (R91). -/
def indexOperand : List Token → Option (Fin 8)
  | [.word cs] => (numberValue cs).bind fun n => if h : n < 8 then some ⟨n, h⟩ else none
  | _ => none

/-- The line a token list writes; `some none` is a line with no command on it. -/
def parseTokens : List Token → Option (Option AsmLine)
  | [] => some none
  | .word ['I', 'N', 'I', 'T'] :: [] => some (some (.command .init))
  | .word ['F', 'I', 'N', 'A', 'L'] :: [] => some (some (.command .final))
  | .word ['R', 'D', 'S', 'T', 'A', 'T'] :: [] => some (some (.command .rdstat))
  | .word ['N', 'E', 'W'] :: [] => some (some .new)
  | .word ['R', 'E', 'S', 'E', 'T'] :: [] => some (some .reset)
  | .word ['D', 'I', 'G', 'E', 'S', 'T'] :: [] => some (some .digest)
  | .word ['R', 'D', 'D', 'I', 'G'] :: ts => (indexOperand ts).map fun i => some (.command (.rddig i))
  | .word ['A', 'B', 'S', 'O', 'R', 'B'] :: ts => (messageOperand ts).map fun m => some (.absorb m)
  | .word ['U', 'P', 'D', 'A', 'T', 'E'] :: ts =>
    (byteOperands ts).bind fun bs =>
      if (Instr.update bs).wellFormed then some (some (.command (.update bs))) else none
  | _ => none

/-- One line of text (R91, R92). -/
def parseLine (line : List Char) : Option (Option AsmLine) := (lexFrom .gap line).bind parseTokens

/-- The words one line assembles to; a blank or comment line assembles to none. -/
def assembleLine (line : List Char) : Option (List CommandWord) :=
  (parseLine line).map fun
    | some l => l.words
    | none => []

/-! ## Disassembly (R93) -/

/-- A hexadecimal digit. -/
def hexDigit (n : Nat) : Char := Char.ofNat (if n < 10 then 0x30 + n else 0x61 + (n - 10))

/-- A byte operand in `0x` hex with two digits. -/
def byteText (b : Byte) : List Char := ['0', 'x', hexDigit (b.toNat / 16), hexDigit (b.toNat % 16)]

/-- Byte operands separated by a comma and a space. -/
def byteListText : List Byte → List Char
  | [] => []
  | [b] => byteText b
  | b :: rest => byteText b ++ [',', ' '] ++ byteListText rest

/-- The canonical line of a command. -/
def commandText : Instr → List Char
  | .init => ['I', 'N', 'I', 'T']
  | .update bytes => ['U', 'P', 'D', 'A', 'T', 'E', ' '] ++ byteListText bytes
  | .final => ['F', 'I', 'N', 'A', 'L']
  | .rddig idx => ['R', 'D', 'D', 'I', 'G', ' ', hexDigit idx]
  | .rdstat => ['R', 'D', 'S', 'T', 'A', 'T']

/-- The canonical line of a word that decodes to a command. -/
def disassemble (c : CommandWord) : Option (List Char) :=
  match decode c with
  | .command i => some (commandText i)
  | .illegal _ => none

end Sys2Proof.Machine
end

