-- ==== Sys2Proof/Machine/Platform.lean ====
section
/-!
DEFINITION. Machine/Platform.lean: `N_INST` engine instances side by side (10_state.md R42, 60_exceptions.md R244). Each has its own
state and its own channel; they share only the ROMs, which are constants.
-/

namespace Sys2Proof.Machine

/-- A platform of `n` instances; `N_INST >= 1` is the model argument `n` (00_scope.md R8, decision D20). -/
structure Platform (n : Nat) where
  instances : Vector State n
  deriving DecidableEq, Repr

/-- Every instance starts from the reset state (R244). -/
def Platform.reset (n : Nat) : Platform n := ⟨Vector.replicate n State.reset⟩

/-- One step of instance `k`; the others stand still (R42). -/
def Platform.stepInstance {n : Nat} (k : Fin n) (p : Platform n) : Host.Outcome (Platform n) Fault Refusal :=
  match step p.instances[k] with
  | .next s => .next ⟨p.instances.set k s⟩
  | .fault f => .fault f
  | .refused r => .refused r

/-- The instances step in the order of the list, which stands for any interleaving of their channels (R71). -/
def Platform.runSchedule {n : Nat} : List (Fin n) → Platform n → Host.Outcome (Platform n) Fault Refusal
  | [], p => .next p
  | k :: ks, p =>
    match p.stepInstance k with
    | .next q => Platform.runSchedule ks q
    | .fault f => .fault f
    | .refused r => .refused r

end Sys2Proof.Machine
end

