-- ==== Sys2Proof/Machine/Message.lean ====
section
/-!
DEFINITION. Machine/Message.lean: what the engine's state means in terms of the message absorbed since INIT (10_state.md R21, R26, R27)
and the digest of a whole message (43_padding_finalizer.md R203, R204). No command calls these; statements do.
-/

namespace Sys2Proof.Machine

/-- The complete 64-byte blocks `B_0 .. B_{n-1}` of a message, `n = floor(len(m) / 64)` (R21). -/
def completeBlocks (m : List Byte) : List Block :=
  List.ofFn fun i : Fin (m.length / 64) => Vector.ofFn fun j : Fin 64 => m[64 * i.val + j.val]

/-- `Compress(...Compress(Compress(H0, B_0), B_1)..., B_{n-1})` (R21). -/
def chainingValue (m : List Byte) : DigestState := (completeBlocks m).foldl compress initialHash

/-- The digest state of a whole message: the fold of Compress over the blocks of `m ++ pad(len(m))` (R203). -/
def messageDigest (m : List Byte) : DigestState := chainingValue (m ++ pad m.length)

/-- `bytes32(H[0]) ++ ... ++ bytes32(H[7])` (R204). -/
def digestBytes (H : DigestState) : List Byte := H.toList.flatMap bytes32

/-- The engine that has absorbed exactly `m` since INIT: R21 for `H`, R26 for `BUF`, R29 for `FILL`, R27 for `LEN`. -/
def absorbedEngine (m : List Byte) : Engine :=
  { h := chainingValue m
    buf := Vector.ofFn fun j => m[64 * (m.length / 64) + j.val]?
    fill := m.length % 64
    len := m.length
    phase := .absorbing
    cause := .noFault }

end Sys2Proof.Machine
end

