-- ==== Sys2Proof/Safety.lean ====
section
/-!
DEFINITION. Safety.lean: the states the block can be in between commands, and what a safe run is. Each clause is a rule of 10_state.md.
-/

namespace Sys2Proof.Machine

/-- R25: between commands the fill count is 0..63. -/
abbrev Engine.FillInRange (e : Engine) : Prop := e.fill < 64

/-- R28: `0 <= LEN <= MAX_LEN`. -/
abbrev Engine.LenInRange (e : Engine) : Prop := e.len ≤ Config.maxLen

/-- R31: `CAUSE` is NONE exactly outside FAULTED. -/
abbrev Engine.CauseAgrees (e : Engine) : Prop := e.cause = .noFault ↔ e.phase ≠ .faulted

/-- R29 and R205: `FILL = LEN mod 64` in ABSORBING, `FILL = 0` in FINALIZED, and one of the two in FAULTED, which changed
neither. -/
abbrev Engine.FillAgrees (e : Engine) : Prop :=
  (e.phase = .absorbing → e.fill = e.len % 64) ∧ (e.phase = .finalized → e.fill = 0) ∧
  (e.phase = .faulted → e.fill = e.len % 64 ∨ e.fill = 0)

/-- R26: in ABSORBING exactly the bytes `BUF[0..FILL-1]` have been written. -/
abbrev Engine.BufferAgrees (e : Engine) : Prop :=
  e.phase = .absorbing → ∀ j : Fin 64, e.buf[j].isSome = true ↔ j.val < e.fill

/-- The states of one instance between commands. -/
abbrev Engine.Valid (e : Engine) : Prop :=
  e.FillInRange ∧ e.LenInRange ∧ e.CauseAgrees ∧ e.FillAgrees ∧ e.BufferAgrees

/-- The valid bytes `BUF[0..FILL-1]`, in order: the unprocessed tail of the message (R24, R26). -/
def Engine.tail (e : Engine) : List Byte := (e.buf.toList.take e.fill).filterMap id

/-- R21 and R203: in ABSORBING the engine is the one that has absorbed some message since INIT, and in FINALIZED `H` is the digest
state of one. -/
abbrev Engine.Explained (e : Engine) : Prop :=
  (e.phase = .absorbing → ∃ m : List Byte, m.length ≤ Config.maxLen ∧ e = absorbedEngine m) ∧
  (e.phase = .finalized → ∃ m : List Byte, m.length ≤ Config.maxLen ∧
    e.h = messageDigest m ∧ e.len = m.length ∧ e.fill = 0 ∧ e.cause = .noFault) ∧
  (e.phase = .faulted → e.cause ≠ .noFault)

/-- Two states no host can tell apart: equal, or both in FINALIZED with the same `H`, or both in FAULTED with the same cause; `BUF`,
`FILL` and `LEN` may differ there, and in FAULTED `H` too (R40, R205). -/
abbrev State.SameToHost (s u : State) : Prop :=
  s = u ∨
  (s.pending = u.pending ∧ s.responses = u.responses ∧ s.engine.phase = u.engine.phase ∧ s.engine.cause = u.engine.cause ∧
    s.engine.phase ≠ .absorbing ∧ (s.engine.phase = .finalized → s.engine.h = u.engine.h))

/-- Commands executed one after another, stopping at the first stop. -/
def execAll : List Instr → State → StepOutcome
  | [], s => .next s
  | i :: is, s =>
    match exec i s with
    | .next t => execAll is t
    | .fault f => .fault f
    | .refused r => .refused r

/-- The host issues these commands next, before what it had pending. -/
def State.withCommands (s : State) (is : List Instr) : State :=
  { s with pending := is.map (fun i => .command (encode i)) ++ s.pending }

/-- A safe step goes on: it answers a next state. -/
abbrev GoesOn (o : StepOutcome) : Prop := ∃ t, o = .next t

end Sys2Proof.Machine
end

