-- ==== Sys2Proof/Certificates/Slice0/Obligations.lean ====
section
/-!
DEFINITION. Certificates/Slice0/Obligations.lean: the statements for the provers.
-/

open Sys2Proof Sys2Proof.Machine

/-! ## Encoding -/

/-- R89, R91, R93: decoding the canonical word of a well-formed command gives the command back, with every operand. -/
def Obligations.DecodeOfEncodeIsTheCommand : Prop :=
  ∀ i : Instr, i.wellFormed = true → decode (encode i) = .command i

/-- R93: a word that decodes to a command decodes to a well-formed one, and the command's canonical word is that word with its
ignored lanes zeroed. -/
def Obligations.EncodeOfDecodeIsCanonical : Prop :=
  ∀ (c : CommandWord) (i : Instr), decode c = .command i → i.wellFormed = true ∧ encode i = canonical c

/-- R89: exactly the words that fail one of its checks are ILLEGAL. -/
def Obligations.IllegalWordsAreExactlyThese : Prop :=
  ∀ c : CommandWord,
    (∃ why, decode c = .illegal why) ↔
      (c.extractLsb' 32 24 ≠ 0 ∨
        (c.extractLsb' 60 4 = 0x0 ∨ 0x6 ≤ (c.extractLsb' 60 4).toNat) ∨
        ((c.extractLsb' 60 4 = 0x1 ∨ c.extractLsb' 60 4 = 0x3 ∨ c.extractLsb' 60 4 = 0x5) ∧
          (c.extractLsb' 56 4 ≠ 0 ∨ c.extractLsb' 0 32 ≠ 0)) ∨
        (c.extractLsb' 60 4 = 0x2 ∧ c.extractLsb' 58 2 ≠ 0) ∨
        (c.extractLsb' 60 4 = 0x4 ∧ (c.getLsbD 59 = true ∨ c.extractLsb' 0 32 ≠ 0)))

/-- R86: the operands of UPDATE. `ARG[3:2]` must be 00; `NB = zext(C[57:56]) + 1`; the bytes are the first `NB` lanes from
`DATA[31:24]` down, and the other lanes may hold any value; the encoder writes them as zero. -/
def Obligations.UpdateOperandsAreTheFirstLanes : Prop :=
  (∀ c : CommandWord, c.extractLsb' 60 4 = 0x2 → c.extractLsb' 58 2 = 0 → c.extractLsb' 32 24 = 0 →
    ∃ bytes : List Byte, decode c = .command (.update bytes) ∧
      bytes.length = (c.extractLsb' 56 2).toNat + 1 ∧
      ∀ k, (h : k < bytes.length) → bytes[k] = c.extractLsb' (24 - 8 * k) 8) ∧
  (∀ c : CommandWord, c.extractLsb' 60 4 = 0x2 → c.extractLsb' 58 2 ≠ 0 → ∃ why, decode c = .illegal why) ∧
  ∀ bytes : List Byte, (Instr.update bytes).wellFormed = true →
    ∀ k, bytes.length ≤ k → k < 4 → (encode (.update bytes)).extractLsb' (24 - 8 * k) 8 = 0

/-- The opcode table: a word decodes to a command of a row exactly when its bits under the row's mask are the row's pattern. -/
def Obligations.DecodeMatchesTheOpcodeTable : Prop :=
  ∀ (c : CommandWord) (r : TableRow), r ∈ opcodeTable →
    ((∃ i : Instr, decode c = .command i ∧ i.mnemonic = r.mnemonic) ↔ c &&& r.mask = r.pattern)

/-- R94: its example words, decoded, and the legal canonical ones encoded. -/
def Obligations.DecodeOfTheExampleWords : Prop :=
  encode .init = 0x1000000000000000 ∧
  encode (.update [0x61]) = 0x2000000061000000 ∧
  encode (.update [0x61, 0x62, 0x63]) = 0x2200000061626300 ∧
  encode (.update [0x80, 0, 0, 1]) = 0x2300000080000001 ∧
  encode .final = 0x3000000000000000 ∧
  encode (.rddig 7) = 0x4700000000000000 ∧
  encode .rdstat = 0x5000000000000000 ∧
  decode 0x1000000000000000 = .command .init ∧
  decode 0x2000000061000000 = .command (.update [0x61]) ∧
  decode 0x2200000061626300 = .command (.update [0x61, 0x62, 0x63]) ∧
  decode 0x2300000080000001 = .command (.update [0x80, 0, 0, 1]) ∧
  decode 0x3000000000000000 = .command .final ∧
  decode 0x4700000000000000 = .command (.rddig 7) ∧
  decode 0x5000000000000000 = .command .rdstat ∧
  (∃ why, decode 0x0000000000000000 = .illegal why) ∧
  (∃ why, decode 0x4800000000000000 = .illegal why) ∧
  (∃ why, decode 0x1000000100000000 = .illegal why) ∧
  decode 0x20000000610000FF = .command (.update [0x61])

/-! ## Assembler -/

/-- R92: the expansions. ABSORB's commands are well formed, there are `ceil(len(m)/4)` of them, and their bytes in order are `m`. -/
def Obligations.PseudoInstructionsExpandAsTheRuleSays : Prop :=
  AsmLine.new.expand = [.init] ∧ AsmLine.reset.expand = [.init] ∧
  AsmLine.digest.expand =
    [.final, .rddig 0, .rddig 1, .rddig 2, .rddig 3, .rddig 4, .rddig 5, .rddig 6, .rddig 7] ∧
  ∀ m : List Byte, ∃ pieces : List (List Byte),
    (AsmLine.absorb m).expand = pieces.map Instr.update ∧ pieces.length = (m.length + 3) / 4 ∧
    ∀ k, (h : k < pieces.length) →
      pieces[k] = (m.drop (4 * k)).take 4 ∧ (Instr.update pieces[k]).wellFormed = true

/-- R91, R93: the canonical line of a well-formed command assembles to the command's canonical word. The form of the byte operands in
the line is the model's choice (log entry 12). -/
def Obligations.AssemblingTheCanonicalLineGivesTheWord : Prop :=
  ∀ i : Instr, i.wellFormed = true →
    parseLine (commandText i) = some (some (.command i)) ∧ assembleLine (commandText i) = some [encode i]

/-! ## The host step -/

/-- R110: when the host's next word decodes to a command, the step is `exec` of that command, with the word consumed. -/
def Obligations.StepRunsTheDecodedCommand : Prop :=
  ∀ (s : State) (c : CommandWord) (rest : List HostAction) (i : Instr),
    s.pending = .command c :: rest → decode c = .command i → step s = exec i { s with pending := rest }

/-- R89, R231, R237: an ILLEGAL word raises E_ILLEGAL in every phase; in FAULTED the first cause is kept. -/
def Obligations.IllegalWordRaisesEIllegal : Prop :=
  ∀ (s : State) (c : CommandWord) (rest : List HostAction) (why : IllegalReason),
    s.pending = .command c :: rest → decode c = .illegal why →
    (s.engine.phase ≠ .faulted →
      step s = .next { engine := { s.engine with phase := .faulted, cause := .eIllegal }, pending := rest,
                       responses := s.responses ++ [⟨.fault, 0⟩] }) ∧
    (s.engine.phase = .faulted →
      step s = .next { engine := s.engine, pending := rest, responses := s.responses ++ [⟨.fault, 0⟩] })

/-- R270: hardware reset gives the reset state, which is INIT's, and returns nothing. -/
def Obligations.HardwareResetGivesTheResetState : Prop :=
  ∀ (s : State) (rest : List HostAction), s.pending = .hardwareReset :: rest →
    ∃ e : Engine,
      step s = .next { engine := e, pending := rest, responses := s.responses } ∧
      e.h = initialHash ∧ e.fill = 0 ∧ e.len = 0 ∧ e.phase = .absorbing ∧ e.cause = .noFault ∧
      (∀ j : Fin 64, e.buf[j] = none) ∧
      (∀ u : State, exec .init u = .next { u with engine := e, responses := u.responses ++ [⟨.ok, 0⟩] }) ∧
      e = State.reset.engine

/-- R246 by log entry 3: with nothing pending the instance keeps all its state. -/
def Obligations.IdleInstanceKeepsItsState : Prop :=
  ∀ s : State, s.pending = [] → step s = .next s

/-- R17, R70, R279: a step that takes a command word consumes it and appends one response, whose value is 0 when its status is
FAULT; the responses already given and the words behind it stay. -/
def Obligations.EveryCommandGetsOneResponse : Prop :=
  ∀ (s t : State) (c : CommandWord) (rest : List HostAction),
    s.pending = .command c :: rest → step s = .next t →
    ∃ r : Response, t.responses = s.responses ++ [r] ∧ t.pending = rest ∧ (r.st = .fault → r.val = 0)

/-- R122: what a command does is a function of the engine alone: neither the words behind it nor earlier responses enter. -/
def Obligations.CommandsDependOnTheEngineAlone : Prop :=
  ∀ i : Instr, ∃ f : Engine → Except Fault (Engine × Response), ∀ s : State,
    exec i s = match f s.engine with
      | .ok (e, r) => .next { engine := e, pending := s.pending, responses := s.responses ++ [r] }
      | .error x => .fault x

/-! ## The commands -/

/-- R111: INIT in every phase, and the one word that encodes it. -/
def Obligations.InitStartsANewMessage : Prop :=
  (∀ s : State, exec .init s =
    .next { engine := { h := initialHash, buf := Vector.replicate 64 none, fill := 0, len := 0,
                        phase := .absorbing, cause := .noFault },
            pending := s.pending, responses := s.responses ++ [⟨.ok, 0⟩] }) ∧
  ∀ c : CommandWord, decode c = .command .init ↔ c = 0x1000000000000000

/-- R112, R113: UPDATE within the limit completes. It appends its bytes to the unprocessed tail; when the tail reaches 64 bytes they
are compressed into `H` and the rest stays. `Engine.Valid` is the model's invariant (StepKeepsTheEngineValid). -/
def Obligations.UpdateAbsorbsItsBytes : Prop :=
  ∀ (s : State) (bytes : List Byte),
    s.engine.Valid → s.engine.phase = .absorbing → (Instr.update bytes).wellFormed = true →
    s.engine.len + bytes.length ≤ Config.maxLen →
    ∃ e : Engine,
      exec (.update bytes) s = .next { s with engine := e, responses := s.responses ++ [⟨.ok, 0⟩] } ∧
      e.len = s.engine.len + bytes.length ∧ e.phase = .absorbing ∧ e.cause = s.engine.cause ∧
      e.fill = (s.engine.fill + bytes.length) % 64 ∧
      (s.engine.fill + bytes.length < 64 → e.h = s.engine.h ∧ e.tail = s.engine.tail ++ bytes) ∧
      (64 ≤ s.engine.fill + bytes.length →
        ∃ block : Block, block.toList = (s.engine.tail ++ bytes).take 64 ∧
          e.h = compress s.engine.h block ∧ e.tail = (s.engine.tail ++ bytes).drop 64)

/-- R113, R22: what UPDATE leaves unchanged. The byte stored to is `BUF[FILL]` and on from it; when the block fills, the buffer is
emptied and the bytes left over stand at its start. -/
def Obligations.UpdateFrame : Prop :=
  ∀ (s t : State) (bytes : List Byte),
    (Instr.update bytes).wellFormed = true → exec (.update bytes) s = .next t → t.engine.phase = .absorbing →
    s.engine.phase = .absorbing ∧ t.engine.cause = s.engine.cause ∧ t.pending = s.pending ∧
    t.responses = s.responses ++ [⟨.ok, 0⟩] ∧ t.engine.len = s.engine.len + bytes.length ∧
    (s.engine.fill + bytes.length < 64 →
      t.engine.h = s.engine.h ∧ t.engine.fill = s.engine.fill + bytes.length ∧
      ∀ j : Fin 64, t.engine.buf[j] =
        if s.engine.fill ≤ j.val ∧ j.val < s.engine.fill + bytes.length
        then bytes[j.val - s.engine.fill]? else s.engine.buf[j]) ∧
    (64 ≤ s.engine.fill + bytes.length →
      t.engine.fill = s.engine.fill + bytes.length - 64 ∧
      ∀ j : Fin 64, t.engine.buf[j] =
        if j.val < t.engine.fill then bytes[64 - s.engine.fill + j.val]? else none)

/-- R114: an UPDATE that would pass MAX_LEN faults with E_LENOVF and absorbs nothing. -/
def Obligations.UpdatePastTheLimitRaisesELenOvf : Prop :=
  ∀ (s : State) (bytes : List Byte),
    s.engine.phase = .absorbing → 2 ^ 61 - 1 < s.engine.len + bytes.length →
    exec (.update bytes) s =
      .next { s with engine := { s.engine with phase := .faulted, cause := .eLenOvf },
                     responses := s.responses ++ [⟨.fault, 0⟩] }

/-- R112, R116, R117, R230: a command not allowed in the phase faults with E_STATE, whatever else would be wrong (R233), and does
nothing else. -/
def Obligations.CommandInTheWrongPhaseRaisesEState : Prop :=
  ∀ (s : State) (i : Instr),
    (s.engine.phase = .finalized ∧ ((∃ bytes, i = .update bytes) ∨ i = .final)) ∨
      (s.engine.phase = .absorbing ∧ ∃ idx, i = .rddig idx) →
    exec i s =
      .next { s with engine := { s.engine with phase := .faulted, cause := .eState },
                     responses := s.responses ++ [⟨.fault, 0⟩] }

/-- R234: in FAULTED, INIT and RDSTAT execute as usual, and every other command and every illegal word is answered FAULT(0) with no
change of the engine. -/
def Obligations.FaultedInstanceRejectsCommands : Prop :=
  ∀ s : State, s.engine.phase = .faulted →
    (∀ i : Instr, i ≠ .init → i ≠ .rdstat → exec i s = .next { s with responses := s.responses ++ [⟨.fault, 0⟩] }) ∧
    (∀ (c : CommandWord) (why : IllegalReason), decode c = .illegal why →
      issueCommand c s = .next { s with responses := s.responses ++ [⟨.fault, 0⟩] }) ∧
    exec .init s = .next { s with engine := Engine.reset, responses := s.responses ++ [⟨.ok, 0⟩] } ∧
    exec .rdstat s = .next { s with responses := s.responses ++ [⟨.ok, s.engine.statusWord⟩] }

/-- R201, R202, R116: FINAL with FILL <= 55 completes with exactly one compression, of the tail and its padding. -/
def Obligations.FinalWithRoomCompressesOnce : Prop :=
  ∀ s : State, s.engine.Valid → s.engine.phase = .absorbing → s.engine.fill ≤ 55 →
    ∃ block : Block, block.toList = s.engine.tail ++ pad s.engine.len ∧
      exec .final s =
        .next { s with
          engine := { h := compress s.engine.h block, buf := block.map some, fill := 0, len := s.engine.len,
                      phase := .finalized, cause := s.engine.cause },
          responses := s.responses ++ [⟨.ok, 0⟩] }

/-- R201, R202, R116: FINAL with FILL >= 56 completes with exactly two compressions, and no message byte lands in the second
block. -/
def Obligations.FinalWithoutRoomCompressesTwice : Prop :=
  ∀ s : State, s.engine.Valid → s.engine.phase = .absorbing → 56 ≤ s.engine.fill →
    ∃ first second : Block, first.toList ++ second.toList = s.engine.tail ++ pad s.engine.len ∧
      second.toList = List.replicate 56 0 ++ (bytes64 (BitVec.ofNat 64 (8 * s.engine.len))).toList ∧
      exec .final s =
        .next { s with
          engine := { h := compress (compress s.engine.h first) second, buf := second.map some, fill := 0,
                      len := s.engine.len, phase := .finalized, cause := s.engine.cause },
          responses := s.responses ++ [⟨.ok, 0⟩] }

/-- R205, R201: what FINAL leaves unchanged when it executes: LEN, CAUSE, the channel, and with FILL <= 55 the message bytes
of BUF. -/
def Obligations.FinalFrame : Prop :=
  ∀ s t : State, s.engine.phase = .absorbing → exec .final s = .next t →
    t.engine.len = s.engine.len ∧ t.engine.cause = s.engine.cause ∧ t.engine.phase = .finalized ∧ t.engine.fill = 0 ∧
    t.pending = s.pending ∧ t.responses = s.responses ++ [⟨.ok, 0⟩] ∧
    (s.engine.fill ≤ 55 → ∀ j : Fin 64, j.val < s.engine.fill → t.engine.buf[j] = s.engine.buf[j])

/-- R117: RDDIG in each phase, and the words that encode it. -/
def Obligations.RddigReadsADigestWord : Prop :=
  (∀ (s : State) (idx : Fin 8),
    (s.engine.phase = .finalized →
      exec (.rddig idx) s = .next { s with responses := s.responses ++ [⟨.ok, s.engine.h[idx]⟩] }) ∧
    (s.engine.phase = .absorbing →
      exec (.rddig idx) s =
        .next { s with engine := { s.engine with phase := .faulted, cause := .eState },
                       responses := s.responses ++ [⟨.fault, 0⟩] }) ∧
    (s.engine.phase = .faulted →
      exec (.rddig idx) s = .next { s with responses := s.responses ++ [⟨.fault, 0⟩] })) ∧
  ∀ (c : CommandWord) (idx : Fin 8),
    decode c = .command (.rddig idx) ↔ c = 0x4000000000000000 + BitVec.ofNat 64 (idx.val * 2 ^ 56)

/-- R118: RDSTAT in every phase returns CAUSE * 2^4 + PHASE and changes nothing. -/
def Obligations.RdstatReturnsTheStatusWord : Prop :=
  (∀ s : State,
    exec .rdstat s =
      .next { s with responses := s.responses ++
        [⟨.ok, BitVec.ofNat 32
          ((match s.engine.cause with | .noFault => 0 | .eIllegal => 1 | .eState => 2 | .eLenOvf => 3) * 2 ^ 4 +
           (match s.engine.phase with | .absorbing => 0 | .finalized => 1 | .faulted => 2))⟩] }) ∧
  ∀ c : CommandWord, decode c = .command .rdstat ↔ c = 0x5000000000000000

/-- R33: the layout of STATUS, and its reset value. -/
def Obligations.StatusWordLayout : Prop :=
  (∀ e : Engine,
    e.statusWord.extractLsb' 0 2 = e.phase.code ∧ e.phase.code ≠ 3 ∧
    e.statusWord.extractLsb' 2 2 = 0 ∧
    e.statusWord.extractLsb' 4 4 = e.cause.code ∧ e.cause.code.toNat < 4 ∧
    e.statusWord.extractLsb' 8 24 = 0) ∧
  State.reset.engine.statusWord = 0

/-- R67: INIT and the reads are idempotent: issued again they give the same state, and a read that succeeded gives the same
answer. -/
def Obligations.InitAndReadsAreIdempotent : Prop :=
  ∀ (s t : State) (i : Instr) (v : Word),
    (i = .init ∨ i = .rdstat ∨ ∃ idx, i = .rddig idx) →
    exec i s = .next t → t.responses = s.responses ++ [⟨.ok, v⟩] →
    exec i t = .next { t with responses := t.responses ++ [⟨.ok, v⟩] }

/-! ## Faults -/

/-- R231, R237: fault entry from any state. -/
def Obligations.FaultEntryIsPrecise : Prop :=
  ∀ (code : Cause) (s : State),
    (s.engine.phase ≠ .faulted →
      raiseFault code s = { s with engine := { s.engine with phase := .faulted, cause := code },
                                   responses := s.responses ++ [⟨.fault, 0⟩] }) ∧
    (s.engine.phase = .faulted → raiseFault code s = { s with responses := s.responses ++ [⟨.fault, 0⟩] })

/-- R234, R236: only INIT and hardware reset leave FAULTED, and they give the reset state. -/
def Obligations.OnlyInitAndResetLeaveFaulted : Prop :=
  ∀ s t : State, s.engine.phase = .faulted → step s = .next t → t.engine.phase ≠ .faulted →
    (∃ rest, s.pending = .hardwareReset :: rest ∨ s.pending = .command 0x1000000000000000 :: rest) ∧
    t.engine = State.reset.engine

/-- R31, R234: while an instance stays FAULTED nothing of its engine changes, its first cause included. -/
def Obligations.FaultedEngineIsFrozen : Prop :=
  ∀ s t : State, s.engine.phase = .faulted → step s = .next t → t.engine.phase = .faulted → t.engine = s.engine

/-- R22: what writes `H`, and with what: INIT and reset with `H0`, an UPDATE that fills the block with one compression, and FINAL with
one or two. -/
def Obligations.OnlyTheseWriteTheDigestState : Prop :=
  ∀ s t : State, step s = .next t → t.engine.h ≠ s.engine.h →
    ((∃ rest, s.pending = .hardwareReset :: rest) ∧ t.engine.h = initialHash) ∨
    ∃ c rest i, s.pending = .command c :: rest ∧ decode c = .command i ∧
      ((i = .init ∧ t.engine.h = initialHash) ∨
        (s.engine.phase = .absorbing ∧ (∃ bytes, i = .update bytes ∧ 64 ≤ s.engine.fill + bytes.length) ∧
          ∃ block, t.engine.h = compress s.engine.h block) ∨
        (s.engine.phase = .absorbing ∧ i = .final ∧
          ((s.engine.fill ≤ 55 ∧ ∃ block, t.engine.h = compress s.engine.h block) ∨
            (56 ≤ s.engine.fill ∧
              ∃ first second, t.engine.h = compress (compress s.engine.h first) second))))

/-- R32, R33: PHASE is written only by a hardware reset or the word of INIT, which leave the reset state; by a FINAL in ABSORBING; and
by a command that takes a fault, which changes PHASE and CAUSE alone and is answered FAULT(0). CAUSE is written only by the first and
the last of these. -/
def Obligations.OnlyTheseWritePhaseAndCause : Prop :=
  ∀ s t : State, step s = .next t →
    (t.engine.phase ≠ s.engine.phase →
      ((∃ rest, s.pending = .hardwareReset :: rest ∨ s.pending = .command 0x1000000000000000 :: rest) ∧
        t.engine = State.reset.engine) ∨
      (s.engine.phase = .absorbing ∧ t.engine.phase = .finalized ∧
        ∃ c rest, s.pending = .command c :: rest ∧ decode c = .command .final) ∨
      ((∃ c rest, s.pending = .command c :: rest) ∧ s.engine.phase ≠ .faulted ∧
        t.engine = { s.engine with phase := .faulted, cause := t.engine.cause } ∧
        t.responses = s.responses ++ [⟨.fault, 0⟩])) ∧
    (t.engine.cause ≠ s.engine.cause →
      ((∃ rest, s.pending = .hardwareReset :: rest ∨ s.pending = .command 0x1000000000000000 :: rest) ∧
        t.engine = State.reset.engine) ∨
      ((∃ c rest, s.pending = .command c :: rest) ∧ s.engine.phase ≠ .faulted ∧
        t.engine = { s.engine with phase := .faulted, cause := t.engine.cause } ∧
        t.responses = s.responses ++ [⟨.fault, 0⟩]))

/-! ## Invariants -/

/-- The reset state meets the invariant. -/
def Obligations.ResetStateIsValid : Prop := State.reset.engine.Valid ∧ State.reset.engine.Explained

/-- R25, R26, R28, R29, R31: every step from a valid engine leaves a valid engine. -/
def Obligations.StepKeepsTheEngineValid : Prop :=
  ∀ s t : State, s.engine.Valid → step s = .next t → t.engine.Valid

/-- R155, R177, R235: from a valid engine every step goes on, whatever the host does. -/
def Obligations.ValidEngineNeverStops : Prop :=
  ∀ s : State, s.engine.Valid → ∃ t : State, step s = .next t

/-- R21, R26, R27, R203: after every step, in ABSORBING the engine is the one that has absorbed some message since INIT, and in
FINALIZED `H` is the SHA-256 digest state of one. -/
def Obligations.StepKeepsTheEngineExplained : Prop :=
  ∀ s t : State, s.engine.Explained → step s = .next t → t.engine.Explained

/-! ## Messages -/

/-- R21, R112: UPDATE takes the engine that has absorbed `m` to the one that has absorbed `m` and then its bytes, for every number of
bytes. -/
def Obligations.UpdateExtendsTheAbsorbedMessage : Prop :=
  absorbedEngine [] = State.reset.engine ∧
  ∀ (s : State) (m bytes : List Byte),
    s.engine = absorbedEngine m → m.length + bytes.length ≤ Config.maxLen →
    exec (.update bytes) s =
      .next { s with engine := absorbedEngine (m ++ bytes), responses := s.responses ++ [⟨.ok, 0⟩] }

/-- R203: FINAL leaves in `H` the fold of Compress over the blocks of the tail and the padding from the `H` it found; for the engine
that has absorbed `m`, that is the fold from `H0` over the blocks of `m` and its padding. -/
def Obligations.FinalLeavesTheMessageDigest : Prop :=
  (∀ s : State, s.engine.Valid → s.engine.phase = .absorbing →
    ∃ t : State, exec .final s = .next t ∧
      t.engine.h = (completeBlocks (s.engine.tail ++ pad s.engine.len)).foldl compress s.engine.h) ∧
  ∀ (s : State) (m : List Byte),
    s.engine = absorbedEngine m → m.length ≤ Config.maxLen →
    ∃ buf : BlockBuffer,
      exec .final s =
        .next { s with
          engine := { h := (completeBlocks (m ++ pad m.length)).foldl compress initialHash, buf := buf, fill := 0,
                      len := m.length, phase := .finalized, cause := .noFault },
          responses := s.responses ++ [⟨.ok, 0⟩] }

/-- R115, R63: two sequences of UPDATEs that carry the same bytes leave the same engine, whatever the byte count of each. -/
def Obligations.StreamingEquivalence : Prop :=
  ∀ (s : State) (xs ys : List (List Byte)),
    s.engine.Valid → s.engine.phase = .absorbing → xs.flatten = ys.flatten →
    s.engine.len + xs.flatten.length ≤ Config.maxLen →
    ∃ t u : State, execAll (xs.map .update) s = .next t ∧ execAll (ys.map .update) s = .next u ∧ t.engine = u.engine

/-- R121: absorbing 64 bytes into an empty buffer is one compression of them. -/
def Obligations.FullBlockBypassIsEquivalent : Prop :=
  ∀ (e : Engine) (block : Block), e.fill = 0 →
    absorbBytes block.toList e =
      .ok { e with h := compress e.h block, buf := Vector.replicate 64 none, len := e.len + 64 }

/-- R120, R4: whatever state the instance is in, the words of INIT, ABSORB `m` and DIGEST return the 32 digest bytes of `m`. -/
def Obligations.HostComputesTheDigestOfAnyMessage : Prop :=
  ∀ (s : State) (m : List Byte), m.length ≤ Config.maxLen →
    let commands := AsmLine.new.expand ++ (AsmLine.absorb m).expand ++ AsmLine.digest.expand
    ∃ (t : State) (words : List Word),
      core.run commands.length (s.withCommands commands) = .next t ∧
      t.pending = s.pending ∧ words.length = 8 ∧
      t.responses = s.responses ++ List.replicate ((m.length + 3) / 4 + 2) ⟨.ok, 0⟩ ++ words.map (⟨.ok, ·⟩) ∧
      words.flatMap bytes32 = digestBytes ((completeBlocks (m ++ pad m.length)).foldl compress initialHash)

/-! ## What the host cannot see, and other instances -/

/-- R23, R40: outside FINALIZED no response depends on `H`, `BUF` or `FILL`, and neither do PHASE, CAUSE and LEN after the
command. -/
def Obligations.DigestStateIsHiddenUntilFinalized : Prop :=
  ∀ (s u t v : State) (i : Instr),
    s.engine.phase ≠ .finalized → s.engine.phase = u.engine.phase → s.engine.cause = u.engine.cause →
    s.engine.len = u.engine.len → s.responses = u.responses →
    exec i s = .next t → exec i u = .next v →
    t.responses = v.responses ∧ t.engine.phase = v.engine.phase ∧ t.engine.cause = v.engine.cause ∧
      t.engine.len = v.engine.len

/-- R40, R205: states the host cannot tell apart stay so at every step, and answer alike. -/
def Obligations.LeftoversAreNotObservable : Prop :=
  ∀ s u t : State, s.SameToHost u → step s = .next t →
    ∃ v : State, step u = .next v ∧ t.SameToHost v ∧ t.responses = v.responses

/-- R42, R244: in any interleaving, each instance ends where its own channel alone takes it. -/
def Obligations.InstancesAreIndependent : Prop :=
  ∀ (n : Nat) (ks : List (Fin n)) (p q : Platform n), p.runSchedule ks = .next q →
    ∀ k : Fin n, core.run (ks.count k) p.instances[k] = .next q.instances[k]

/-! ## The datapath -/

/-- R12: the numbers and the bits of a shift and a rotation. R12 is the spec's general knowledge (log entry 7, PRESUMED). -/
def Obligations.ShiftAndRotateBits : Prop :=
  ∀ (x : Word) (n : Nat), 1 ≤ n → n ≤ 31 →
    (shr x n).toNat = x.toNat / 2 ^ n ∧
    (rotr x n).toNat = x.toNat / 2 ^ n ||| x.toNat * 2 ^ (32 - n) % 2 ^ 32 ∧
    ∀ i, i < 32 →
      (rotr x n).getLsbD i = x.getLsbD ((i + n) % 32) ∧
      (shr x n).getLsbD i = if i + n ≤ 31 then x.getLsbD (i + n) else false

/-- R13: the big-endian conversions, as numbers. -/
def Obligations.BigEndianConversions : Prop :=
  (∀ b0 b1 b2 b3 : Byte,
    (be32 b0 b1 b2 b3).toNat = b0.toNat * 2 ^ 24 + b1.toNat * 2 ^ 16 + b2.toNat * 2 ^ 8 + b3.toNat) ∧
  (∀ w : Word, bytes32 w = [w.extractLsb 31 24, w.extractLsb 23 16, w.extractLsb 15 8, w.extractLsb 7 0]) ∧
  (∀ (d : BitVec 64) (k : Fin 8), (bytes64 d)[k] = BitVec.ofNat 8 (d.toNat / 2 ^ (56 - 8 * k.val)))

/-- R150, R151, R170, R171: each bit of the four sigma functions, over the rotations of R12 (log entry 7, PRESUMED). -/
def Obligations.SigmaFunctionsBitByBit : Prop :=
  ∀ (x : Word) (i : Nat), i < 32 →
    (smallSigma0 x).getLsbD i =
      ((x.getLsbD ((i + 7) % 32) ^^ x.getLsbD ((i + 18) % 32)) ^^ (decide (i + 3 ≤ 31) && x.getLsbD (i + 3))) ∧
    (smallSigma1 x).getLsbD i =
      ((x.getLsbD ((i + 17) % 32) ^^ x.getLsbD ((i + 19) % 32)) ^^ (decide (i + 10 ≤ 31) && x.getLsbD (i + 10))) ∧
    (bigSigma0 x).getLsbD i =
      ((x.getLsbD ((i + 2) % 32) ^^ x.getLsbD ((i + 13) % 32)) ^^ x.getLsbD ((i + 22) % 32)) ∧
    (bigSigma1 x).getLsbD i =
      ((x.getLsbD ((i + 6) % 32) ^^ x.getLsbD ((i + 11) % 32)) ^^ x.getLsbD ((i + 25) % 32))

/-- R172, R173: Ch takes the bit of `y` where `x` has a 1 and of `z` where it has a 0; Maj takes the bit at least two of the three
have. -/
def Obligations.ChooseAndMajorityBitByBit : Prop :=
  ∀ (x y z : Word) (i : Nat), i < 32 →
    (choose x y z).getLsbD i = (if x.getLsbD i then y.getLsbD i else z.getLsbD i) ∧
    (majority x y z).getLsbD i =
      decide (2 ≤ (x.getLsbD i).toNat + (y.getLsbD i).toNat + (z.getLsbD i).toNat)

/-- R152, R153: the schedule's 64 words. -/
def Obligations.ScheduleFollowsTheRecurrence : Prop :=
  ∀ block : Block,
    (∀ t, (h : t < 16) → (schedule block)[t] =
      be32 block[4 * t] block[4 * t + 1] block[4 * t + 2] block[4 * t + 3]) ∧
    (∀ t, (hlo : 16 ≤ t) → (hhi : t < 64) → (schedule block)[t] =
      smallSigma1 (schedule block)[t - 2] + (schedule block)[t - 7] +
        smallSigma0 (schedule block)[t - 15] + (schedule block)[t - 16])

/-- R174, R175: Compress is 64 rounds in order from `Hin`, then the eight sums. -/
def Obligations.CompressIsSixtyFourRounds : Prop :=
  ∀ (Hin : DigestState) (block : Block), ∃ v : Nat → Working,
    v 0 = ⟨Hin[0], Hin[1], Hin[2], Hin[3], Hin[4], Hin[5], Hin[6], Hin[7]⟩ ∧
    (∀ t, (h : t < 64) →
      let w := v t
      let T1 := w.h + bigSigma1 w.e + choose w.e w.f w.g + roundConstants[t] + (schedule block)[t]
      let T2 := bigSigma0 w.a + majority w.a w.b w.c
      v (t + 1) = ⟨T1 + T2, w.a, w.b, w.c, w.d + T1, w.e, w.f, w.g⟩) ∧
    compress Hin block =
      #v[Hin[0] + (v 64).a, Hin[1] + (v 64).b, Hin[2] + (v 64).c, Hin[3] + (v 64).d,
         Hin[4] + (v 64).e, Hin[5] + (v 64).f, Hin[6] + (v 64).g, Hin[7] + (v 64).h]

/-- R176: however the 64 rounds are grouped, the working variables come out the same. -/
def Obligations.UnrollingIsNotObservable : Prop :=
  ∀ (W : Vector Word 64) (v : Working) (groups : List (List (Fin 64))), groups.flatten = List.finRange 64 →
    groups.foldl (fun w group => group.foldl (fun x t => roundStep x roundConstants[t] W[t]) w) v =
      roundsUpTo W v 64 (Nat.le_refl 64)

/-- R200: the padding is the terminator, the least zero fill and the 64-bit big-endian bit length. -/
def Obligations.PaddingIsMinimal : Prop :=
  ∀ L : Nat, L ≤ Config.maxLen →
    ∃ z : Nat, z ≤ 63 ∧ (z + L) % 64 = 55 ∧
      pad L = [0x80] ++ List.replicate z 0 ++ (bytes64 (BitVec.ofNat 64 (8 * L))).toList ∧
      (pad L).length = 9 + z ∧ (L + (pad L).length) % 64 = 0 ∧
      (∀ M, M % 64 = 0 → L + 9 ≤ M → L + (pad L).length ≤ M) ∧
      (bytes64 (BitVec.ofNat 64 (8 * L))).toList.foldl (fun acc b => acc * 256 + b.toNat) 0 = 8 * L

/-- R21, R200: how many complete blocks a message has, and how many with its padding. -/
def Obligations.BlockCountOfAMessage : Prop :=
  ∀ m : List Byte,
    (completeBlocks m).length = m.length / 64 ∧
    (completeBlocks (m ++ pad m.length)).length = m.length / 64 + (if m.length % 64 ≤ 55 then 1 else 2)

/-- R204: digest byte `4i + j` is `H[i][31-8j : 24-8j]`, and there are 32. -/
def Obligations.DigestSerialization : Prop :=
  ∀ H : DigestState, (digestBytes H).length = 32 ∧
    ∀ (i : Fin 8) (j : Fin 4), (digestBytes H)[4 * i.val + j.val]? = some (H[i].extractLsb' (24 - 8 * j.val) 8)

/-- V1, the one digest the source gives: the empty message. It rests on the constants and the rotations of log entries 7 and 8
(PRESUMED). -/
def Obligations.DigestOfTheEmptyMessage : Prop :=
  messageDigest [] =
    #v[0xe3b0c442, 0x98fc1c14, 0x9afbf4c8, 0x996fb924, 0x27ae41e4, 0x649b934c, 0xa495991b, 0x7852b855]

/-- R206, R202: after INIT, the UPDATEs of a message of `L` bytes leave in `H` the result of `floor(L / 64)` compressions of `H0`, in
order, and FINAL that of one or two more, each over its own block of the padded message. -/
def Obligations.EachBlockIsCompressedOnce : Prop :=
  ∀ (s : State) (updates : List (List Byte)), updates.flatten.length ≤ Config.maxLen →
    let m := updates.flatten
    ∃ (t u : State) (absorbed finished : List Block),
      execAll (.init :: updates.map .update) s = .next t ∧ exec .final t = .next u ∧
      t.engine.h = absorbed.foldl compress initialHash ∧ u.engine.h = finished.foldl compress t.engine.h ∧
      absorbed ++ finished = completeBlocks (m ++ pad m.length) ∧
      absorbed.length = m.length / 64 ∧ finished.length = if m.length % 64 ≤ 55 then 1 else 2
end

