-- ==== Sys2Proof/Laws/State.lean ====
section
/-!
SUPPORT. Laws/State.lean: what each update of the state does to each field, so that no proof unfolds a record update.
-/

namespace Sys2Proof.Machine

/-! ## `State.respond` -/

@[simp] theorem State.respond_engine (s : State) (r : Response) : (s.respond r).engine = s.engine := rfl
@[simp] theorem State.respond_pending (s : State) (r : Response) : (s.respond r).pending = s.pending := rfl
@[simp] theorem State.respond_responses (s : State) (r : Response) :
    (s.respond r).responses = s.responses ++ [r] := rfl

/-! ## `State.withEngine` -/

@[simp] theorem State.withEngine_engine (s : State) (e : Engine) : (s.withEngine e).engine = e := rfl
@[simp] theorem State.withEngine_pending (s : State) (e : Engine) : (s.withEngine e).pending = s.pending := rfl
@[simp] theorem State.withEngine_responses (s : State) (e : Engine) : (s.withEngine e).responses = s.responses := rfl
@[simp] theorem State.withEngine_self (s : State) : s.withEngine s.engine = s := rfl

/-! ## Responses -/

@[simp] theorem okResponse_st (v : Word) : (okResponse v).st = .ok := rfl
@[simp] theorem okResponse_val (v : Word) : (okResponse v).val = v := rfl
@[simp] theorem faultResponse_st : faultResponse.st = .fault := rfl
@[simp] theorem faultResponse_val : faultResponse.val = 0 := rfl

/-! ## Fault entry -/

@[simp] theorem Engine.enterFault_h (c : Cause) (e : Engine) : (e.enterFault c).h = e.h := by
  unfold Engine.enterFault; split <;> rfl
@[simp] theorem Engine.enterFault_buf (c : Cause) (e : Engine) : (e.enterFault c).buf = e.buf := by
  unfold Engine.enterFault; split <;> rfl
@[simp] theorem Engine.enterFault_fill (c : Cause) (e : Engine) : (e.enterFault c).fill = e.fill := by
  unfold Engine.enterFault; split <;> rfl
@[simp] theorem Engine.enterFault_len (c : Cause) (e : Engine) : (e.enterFault c).len = e.len := by
  unfold Engine.enterFault; split <;> rfl
@[simp] theorem Engine.enterFault_phase (c : Cause) (e : Engine) : (e.enterFault c).phase = .faulted := by
  unfold Engine.enterFault; split <;> simp_all

theorem Engine.enterFault_of_running {e : Engine} (c : Cause) (h : e.phase ≠ .faulted) :
    e.enterFault c = { e with phase := .faulted, cause := c } := if_pos h

theorem Engine.enterFault_of_faulted {e : Engine} (c : Cause) (h : e.phase = .faulted) : e.enterFault c = e :=
  if_neg (not_not_intro h)

@[simp] theorem raiseFault_engine (c : Cause) (s : State) : (raiseFault c s).engine = s.engine.enterFault c := rfl
@[simp] theorem raiseFault_pending (c : Cause) (s : State) : (raiseFault c s).pending = s.pending := rfl
@[simp] theorem raiseFault_responses (c : Cause) (s : State) :
    (raiseFault c s).responses = s.responses ++ [faultResponse] := rfl

@[simp] theorem rejectCommand_engine (s : State) : (rejectCommand s).engine = s.engine := rfl
@[simp] theorem rejectCommand_pending (s : State) : (rejectCommand s).pending = s.pending := rfl
@[simp] theorem rejectCommand_responses (s : State) :
    (rejectCommand s).responses = s.responses ++ [faultResponse] := rfl

/-! ## Reset and INIT -/

theorem initEngine_eq_reset : initEngine = Engine.reset := rfl

@[simp] theorem hardwareReset_engine (s : State) : (hardwareReset s).engine = Engine.reset := rfl
@[simp] theorem hardwareReset_pending (s : State) : (hardwareReset s).pending = s.pending := rfl
@[simp] theorem hardwareReset_responses (s : State) : (hardwareReset s).responses = s.responses := rfl

@[simp] theorem Engine.reset_h : Engine.reset.h = initialHash := rfl
@[simp] theorem Engine.reset_buf : Engine.reset.buf = unwrittenBuffer := rfl
@[simp] theorem Engine.reset_fill : Engine.reset.fill = 0 := rfl
@[simp] theorem Engine.reset_len : Engine.reset.len = 0 := rfl
@[simp] theorem Engine.reset_phase : Engine.reset.phase = .absorbing := rfl
@[simp] theorem Engine.reset_cause : Engine.reset.cause = .noFault := rfl

@[simp] theorem unwrittenBuffer_get (j : Nat) (h : j < 64) : unwrittenBuffer[j] = none := by
  simp [unwrittenBuffer]

end Sys2Proof.Machine
end

