-- ==== Sys2Proof/Laws/Buffer.lean ====
section
/-!
SUPPORT. Laws/Buffer.lean: one lemma per operation on the block buffer, saying everything it can do.
-/

namespace Sys2Proof.Machine

/-- A buffer all of whose bytes have been written holds the block of those bytes. -/
theorem wholeBlock_of_written {buf : BlockBuffer} (h : ∀ j : Fin 64, buf[j].isSome) :
    wholeBlock buf = some (Vector.ofFn fun j => buf[j].get (h j)) := dif_pos h

/-- A block is read from a buffer exactly when the buffer holds that block's bytes. -/
theorem wholeBlock_eq_some_iff {buf : BlockBuffer} {block : Block} :
    wholeBlock buf = some block ↔ buf = block.map some := by
  unfold wholeBlock
  constructor
  · intro h
    split at h
    · rename_i hw
      obtain rfl := Option.some.inj h
      ext j hj : 1
      simp
    · cases h
  · rintro rfl
    simp

@[simp] theorem wholeBlock_map_some (block : Block) : wholeBlock (block.map some) = some block :=
  wholeBlock_eq_some_iff.mpr rfl

@[simp] theorem compressBuffer_block (H : DigestState) (block : Block) :
    compressBuffer H (block.map some) = .ok (compress H block) := by
  unfold compressBuffer
  rw [wholeBlock_map_some]

/-- Compressing a buffer answers the compression of the block it holds. -/
theorem compressBuffer_eq_ok_iff {H H' : DigestState} {buf : BlockBuffer} :
    compressBuffer H buf = .ok H' ↔ ∃ block : Block, buf = block.map some ∧ H' = compress H block := by
  constructor
  · intro h
    unfold compressBuffer at h
    split at h
    · rename_i block hb
      exact ⟨block, wholeBlock_eq_some_iff.mp hb, by simpa using h.symm⟩
    · cases h
  · rintro ⟨block, rfl, rfl⟩
    simp

/-- A buffer whose bytes are all written holds some block. -/
theorem exists_block_of_written {buf : BlockBuffer} (h : ∀ j : Fin 64, buf[j].isSome) :
    ∃ block : Block, buf = block.map some :=
  ⟨_, wholeBlock_eq_some_iff.mp (wholeBlock_of_written h)⟩

/-- Everything AbsorbByte can answer: the byte is stored, or it fills the block and the block is compressed. -/
theorem absorbByte_eq_ok_iff {b : Byte} {e e' : Engine} :
    absorbByte b e = .ok e' ↔
      ∃ hFill : e.fill < 64,
        (e.fill + 1 < 64 ∧
          e' = { e with buf := e.buf.set e.fill (some b), fill := e.fill + 1, len := e.len + 1 }) ∨
        (e.fill + 1 = 64 ∧ ∃ block : Block, e.buf.set e.fill (some b) = block.map some ∧
          e' = { e with h := compress e.h block, buf := unwrittenBuffer, fill := 0, len := e.len + 1 }) := by
  unfold absorbByte
  by_cases hFill : e.fill < 64
  · simp only [hFill, dif_pos, exists_true_left]
    by_cases hFull : e.fill + 1 = 64
    · simp only [hFull, if_pos, lt_irrefl, false_and, false_or, true_and]
      constructor
      · intro h
        split at h
        · rename_i H hH
          obtain ⟨block, hb, rfl⟩ := compressBuffer_eq_ok_iff.mp hH
          exact ⟨block, hb, by simpa using h.symm⟩
        · cases h
      · rintro ⟨block, hb, rfl⟩
        simp [hb]
    · have : e.fill + 1 < 64 := by omega
      simp [hFull, this, eq_comm]
  · simp [hFill]

@[simp] theorem absorbBytes_nil (e : Engine) : absorbBytes [] e = .ok e := rfl

theorem absorbBytes_cons (b : Byte) (bs : List Byte) (e : Engine) :
    absorbBytes (b :: bs) e = (absorbByte b e).bind (absorbBytes bs) := by
  cases h : absorbByte b e <;> simp [absorbBytes, h, Except.bind]

/-- Absorbing two byte lists one after the other is absorbing their concatenation (R115). -/
theorem absorbBytes_append (xs ys : List Byte) (e : Engine) :
    absorbBytes (xs ++ ys) e = (absorbBytes xs e).bind (absorbBytes ys) := by
  induction xs generalizing e with
  | nil => rfl
  | cons b bs ih =>
    rw [List.cons_append, absorbBytes_cons, absorbBytes_cons]
    cases absorbByte b e with
    | ok e' => exact ih e'
    | error f => rfl

/-- A property AbsorbByte keeps is kept by a whole UPDATE's bytes. -/
theorem absorbBytes_induction {P : Engine → Prop} (hstep : ∀ b e e', P e → absorbByte b e = .ok e' → P e')
    {bs : List Byte} {e e' : Engine} (he : P e) (h : absorbBytes bs e = .ok e') : P e' := by
  induction bs generalizing e with
  | nil => cases h; exact he
  | cons b bs ih =>
    rw [absorbBytes_cons] at h
    cases hb : absorbByte b e with
    | ok e1 => rw [hb] at h; exact ih (hstep b e e1 he hb) h
    | error f => rw [hb] at h; cases h

/-- AbsorbByte counts its byte and leaves PHASE and CAUSE alone. -/
theorem absorbByte_frame {b : Byte} {e e' : Engine} (h : absorbByte b e = .ok e') :
    e'.len = e.len + 1 ∧ e'.phase = e.phase ∧ e'.cause = e.cause ∧ e.fill < 64 ∧ e'.fill = (e.fill + 1) % 64 := by
  obtain ⟨hFill, ⟨hlt, rfl⟩ | ⟨heq, block, -, rfl⟩⟩ := absorbByte_eq_ok_iff.mp h
  · exact ⟨rfl, rfl, rfl, hFill, (Nat.mod_eq_of_lt hlt).symm⟩
  · exact ⟨rfl, rfl, rfl, hFill, by simp [heq]⟩

/-- A whole UPDATE's bytes are counted, and PHASE and CAUSE are left alone. -/
theorem absorbBytes_frame {bs : List Byte} {e e' : Engine} (h : absorbBytes bs e = .ok e') :
    e'.len = e.len + bs.length ∧ e'.phase = e.phase ∧ e'.cause = e.cause := by
  induction bs generalizing e with
  | nil => cases h; exact ⟨rfl, rfl, rfl⟩
  | cons b bs ih =>
    rw [absorbBytes_cons] at h
    cases hb : absorbByte b e with
    | ok e1 =>
      rw [hb] at h
      obtain ⟨h1, h2, h3⟩ := ih h
      obtain ⟨k1, k2, k3, -, -⟩ := absorbByte_frame hb
      exact ⟨by rw [h1, k1, List.length_cons]; omega, h2.trans k2, h3.trans k3⟩
    | error f => rw [hb] at h; cases h

/-! ## Finalize -/

@[simp] theorem zeroFill_get (buf : BlockBuffer) (lo hi j : Nat) (h : j < 64) :
    (zeroFill buf lo hi)[j] = if lo ≤ j ∧ j < hi then some 0 else buf[j] := by
  simp [zeroFill]

@[simp] theorem writeLength_get (buf : BlockBuffer) (bitlen : BitVec 64) (j : Nat) (h : j < 64) :
    (writeLength buf bitlen)[j] = if h' : 56 ≤ j then some (bytes64 bitlen)[j - 56] else buf[j] := by
  simp [writeLength]

/-- Everything the last block of Finalize can answer. -/
theorem finalizeLastBlock_eq_ok_iff {bitlen : BitVec 64} {H : DigestState} {buf : BlockBuffer} {fill : Nat}
    {e e' : Engine} :
    finalizeLastBlock bitlen H buf fill e = .ok e' ↔
      ∃ block : Block, writeLength (zeroFill buf fill 56) bitlen = block.map some ∧
        e' = { e with h := compress H block, buf := block.map some, fill := 0 } := by
  unfold finalizeLastBlock
  constructor
  · intro h
    dsimp only at h
    split at h
    · rename_i H' hH
      obtain ⟨block, hb, rfl⟩ := compressBuffer_eq_ok_iff.mp hH
      exact ⟨block, hb, by rw [← hb]; simpa using h.symm⟩
    · cases h
  · rintro ⟨block, hb, rfl⟩
    simp [hb]

/-- Everything Finalize can answer: one block when FILL <= 55, two otherwise (R202). -/
theorem finalize_eq_ok_iff {e e' : Engine} :
    finalize e = .ok e' ↔
      ∃ hFill : e.fill < 64, 8 * e.len < 2 ^ 64 ∧
        ((e.fill ≤ 55 ∧ ∃ block : Block,
            writeLength (zeroFill (e.buf.set e.fill (some 0x80)) (e.fill + 1) 56) (BitVec.ofNat 64 (8 * e.len)) =
              block.map some ∧
            e' = { e with h := compress e.h block, buf := block.map some, fill := 0 }) ∨
         (56 ≤ e.fill ∧ ∃ first second : Block,
            zeroFill (e.buf.set e.fill (some 0x80)) (e.fill + 1) 64 = first.map some ∧
            writeLength (zeroFill (first.map some) 0 56) (BitVec.ofNat 64 (8 * e.len)) = second.map some ∧
            e' = { e with h := compress (compress e.h first) second, buf := second.map some, fill := 0 })) := by
  unfold finalize
  by_cases hFill : e.fill < 64
  · simp only [hFill, dif_pos, exists_true_left]
    by_cases hLen : 8 * e.len < 2 ^ 64
    · simp only [hLen, if_pos, true_and]
      by_cases hRoom : 56 < e.fill + 1
      · have h1 : ¬ e.fill ≤ 55 := by omega
        have h2 : 56 ≤ e.fill := by omega
        simp only [hRoom, if_pos, h1, h2, false_and, false_or, true_and]
        constructor
        · intro h
          split at h
          · rename_i H hH
            obtain ⟨first, hf, rfl⟩ := compressBuffer_eq_ok_iff.mp hH
            rw [hf] at h
            obtain ⟨second, hs, rfl⟩ := finalizeLastBlock_eq_ok_iff.mp h
            exact ⟨first, second, hf, hs, rfl⟩
          · cases h
        · rintro ⟨first, second, hf, hs, rfl⟩
          rw [hf]
          simpa using finalizeLastBlock_eq_ok_iff.mpr ⟨second, hs, rfl⟩
      · have h1 : e.fill ≤ 55 := by omega
        have h2 : ¬ 56 ≤ e.fill := by omega
        simp only [hRoom, if_neg, h1, h2, false_and, or_false, true_and, not_false_eq_true]
        exact finalizeLastBlock_eq_ok_iff
    · simp only [hLen, if_false, false_and, reduceCtorEq]
  · simp [hFill]

/-- Finalize leaves LEN, PHASE and CAUSE alone and ends with FILL 0. -/
theorem finalize_frame {e e' : Engine} (h : finalize e = .ok e') :
    e'.len = e.len ∧ e'.phase = e.phase ∧ e'.cause = e.cause ∧ e'.fill = 0 := by
  obtain ⟨-, -, ⟨-, block, -, rfl⟩ | ⟨-, first, second, -, -, rfl⟩⟩ := finalize_eq_ok_iff.mp h <;> simp

end Sys2Proof.Machine
end

