-- ==== Sys2Proof/Laws/Encoding.lean ====
section
/-!
SUPPORT. Laws/Encoding.lean: the fields of a command word, and everything the decoder can answer.
-/

namespace Sys2Proof

/-! ## Fields -/

/-- A word is its four fields (R80). -/
theorem word_eq_fields (c : CommandWord) : c = opField c ++ argField c ++ resField c ++ dataField c := by
  unfold opField argField resField dataField
  apply BitVec.eq_of_getLsbD_eq
  intro i hi
  simp only [BitVec.getLsbD_append, BitVec.getLsbD_extractLsb']
  by_cases h1 : i < 32
  · simp [h1]
  · by_cases h2 : i - 32 < 24
    · simp [h1, h2, show 32 + (i - 32) = i by omega]
    · by_cases h3 : i - 32 - 24 < 4
      · simp [h1, h2, h3, show 56 + (i - 32 - 24) = i by omega]
      · simp [h1, h2, h3, show 60 + (i - 32 - 24 - 4) = i by omega, show i - 32 - 24 - 4 < 4 by omega]

/-- A word whose RES is zero is the word of its other fields. -/
theorem word_eq_commandWord {c : CommandWord} (h : resField c = 0) :
    c = commandWord (opField c) (argField c) (dataField c) := by
  conv => lhs; rw [word_eq_fields c, h]
  rfl

@[simp] theorem opField_commandWord (op arg : BitVec 4) (data : BitVec 32) : opField (commandWord op arg data) = op := by
  unfold opField commandWord
  apply BitVec.eq_of_getLsbD_eq
  intro i hi
  simp only [BitVec.getLsbD_append, BitVec.getLsbD_extractLsb', hi, decide_true, Bool.true_and]
  rw [if_neg (by omega), if_neg (by omega), if_neg (by omega)]
  congr 1
  omega

@[simp] theorem argField_commandWord (op arg : BitVec 4) (data : BitVec 32) :
    argField (commandWord op arg data) = arg := by
  unfold argField commandWord
  apply BitVec.eq_of_getLsbD_eq
  intro i hi
  simp only [BitVec.getLsbD_append, BitVec.getLsbD_extractLsb', hi, decide_true, Bool.true_and]
  rw [if_neg (by omega), if_neg (by omega), if_pos (by omega)]
  congr 1
  omega

@[simp] theorem resField_commandWord (op arg : BitVec 4) (data : BitVec 32) :
    resField (commandWord op arg data) = 0 := by
  unfold resField commandWord
  apply BitVec.eq_of_getLsbD_eq
  intro i hi
  simp only [BitVec.getLsbD_append, BitVec.getLsbD_extractLsb', hi, decide_true, Bool.true_and]
  rw [if_neg (by omega), if_pos (by omega)]
  simp

@[simp] theorem dataField_commandWord (op arg : BitVec 4) (data : BitVec 32) :
    dataField (commandWord op arg data) = data := by
  unfold dataField commandWord
  apply BitVec.eq_of_getLsbD_eq
  intro i hi
  simp only [BitVec.getLsbD_append, BitVec.getLsbD_extractLsb', hi, decide_true, Bool.true_and, Nat.zero_add, if_true]

/-! ## Well-formedness -/

/-- UPDATE's byte count is 1 to 4 (R86). -/
theorem wellFormed_update_iff {bytes : List Byte} :
    (Instr.update bytes).wellFormed = true ↔ 1 ≤ bytes.length ∧ bytes.length ≤ 4 := by
  unfold Instr.wellFormed
  rw [Bool.and_eq_true, decide_eq_true_iff, decide_eq_true_iff]
  exact Iff.rfl

@[simp] theorem dataLanes_length (data : BitVec 32) : (dataLanes data).length = 4 := rfl

theorem byteCountField_le (arg : BitVec 4) : byteCountField arg ≤ 4 := by
  have := (arg.extractLsb' 0 2).isLt
  unfold byteCountField
  omega

/-! ## The decoder -/

/-- Everything that decodes to a command, by its fields (R89). -/
theorem decode_eq_command_iff {c : CommandWord} {i : Instr} :
    decode c = .command i ↔
      resField c = 0 ∧
      ((opField c = 0x1#4 ∧ argField c = 0 ∧ dataField c = 0 ∧ i = .init) ∨
       (opField c = 0x2#4 ∧ (argField c).extractLsb' 2 2 = 0 ∧
          i = .update ((dataLanes (dataField c)).take (byteCountField (argField c)))) ∨
       (opField c = 0x3#4 ∧ argField c = 0 ∧ dataField c = 0 ∧ i = .final) ∨
       (opField c = 0x4#4 ∧ (argField c).extractLsb' 3 1 = 0 ∧ dataField c = 0 ∧
          i = .rddig ((argField c).extractLsb' 0 3).toFin) ∨
       (opField c = 0x5#4 ∧ argField c = 0 ∧ dataField c = 0 ∧ i = .rdstat)) := by
  unfold decode
  dsimp only
  constructor
  · intro h
    split at h
    · cases h
    rename_i hr
    refine ⟨not_not.mp hr, ?_⟩
    split at h
    · split at h
      · cases h; simp_all
      · cases h
    split at h
    · split at h
      · cases h; simp_all
      · cases h
    split at h
    · split at h
      · cases h; simp_all
      · cases h
    split at h
    · split at h
      · cases h; simp_all
      · cases h
    split at h
    · split at h
      · cases h; simp_all
      · cases h
    · cases h
  · rintro ⟨hr, ⟨ho, ha, hd, rfl⟩ | ⟨ho, ha, rfl⟩ | ⟨ho, ha, hd, rfl⟩ | ⟨ho, ha, hd, rfl⟩ | ⟨ho, ha, hd, rfl⟩⟩
    · simp [hr, ho, ha, hd]
    · simp [hr, ho, ha]
    · simp [hr, ho, ha, hd]
    · simp [hr, ho, ha, hd]
    · simp [hr, ho, ha, hd]

end Sys2Proof
end

