-- ==== Sys2Proof/Laws/Exec.lean ====
section
/-!
SUPPORT. Laws/Exec.lean: one lemma per command, and one for the step, saying everything it can answer.
-/

namespace Sys2Proof.Machine

/-- The length check of UPDATE, as an inequality (R114). -/
theorem wouldOverflow_iff {e : Engine} {bytes : List Byte} :
    e.wouldOverflow bytes = true ↔ Config.maxLen < e.len + bytes.length := decide_eq_true_iff

/-- Everything UPDATE can answer. -/
theorem execUpdate_cases {bytes : List Byte} {s t : State} (h : execUpdate bytes s = .next t) :
    (s.engine.phase = .faulted ∧ t = rejectCommand s) ∨
    (s.engine.phase = .finalized ∧ t = raiseFault .eState s) ∨
    (s.engine.phase = .absorbing ∧ Config.maxLen < s.engine.len + bytes.length ∧ t = raiseFault .eLenOvf s) ∨
    (s.engine.phase = .absorbing ∧ s.engine.len + bytes.length ≤ Config.maxLen ∧
      ∃ e, absorbBytes bytes s.engine = .ok e ∧ t = (s.withEngine e).respond (okResponse 0)) := by
  unfold execUpdate at h
  split at h
  · exact .inl ⟨‹_›, by simpa using h.symm⟩
  split at h
  · refine .inr (.inl ⟨?_, by simpa using h.symm⟩)
    cases hp : s.engine.phase <;> simp_all
  have hp : s.engine.phase = .absorbing := by simp_all
  split at h
  · rename_i ho
    exact .inr (.inr (.inl ⟨hp, wouldOverflow_iff.mp ho, by simpa using h.symm⟩))
  rename_i ho
  split at h
  · rename_i e he
    exact .inr (.inr (.inr ⟨hp, by simpa [wouldOverflow_iff] using ho, e, he, by simpa using h.symm⟩))
  · cases h

/-- UPDATE within the limit is the absorption of its bytes. -/
theorem execUpdate_of_absorbing {bytes : List Byte} {s : State} {e : Engine} (hp : s.engine.phase = .absorbing)
    (hl : s.engine.len + bytes.length ≤ Config.maxLen) (he : absorbBytes bytes s.engine = .ok e) :
    execUpdate bytes s = .next ((s.withEngine e).respond (okResponse 0)) := by
  unfold execUpdate
  rw [if_neg (by simp [hp]), if_neg (by simp [hp]), if_neg (by simpa [wouldOverflow_iff] using hl), he]

/-- Everything FINAL can answer. -/
theorem execFinal_cases {s t : State} (h : execFinal s = .next t) :
    (s.engine.phase = .faulted ∧ t = rejectCommand s) ∨
    (s.engine.phase = .finalized ∧ t = raiseFault .eState s) ∨
    (s.engine.phase = .absorbing ∧
      ∃ e, finalize s.engine = .ok e ∧ t = (s.withEngine { e with phase := .finalized }).respond (okResponse 0)) := by
  unfold execFinal at h
  split at h
  · exact .inl ⟨‹_›, by simpa using h.symm⟩
  split at h
  · refine .inr (.inl ⟨?_, by simpa using h.symm⟩)
    cases hp : s.engine.phase <;> simp_all
  have hp : s.engine.phase = .absorbing := by simp_all
  split at h
  · rename_i e he
    exact .inr (.inr ⟨hp, e, he, by simpa using h.symm⟩)
  · cases h

/-- FINAL in ABSORBING is Finalize. -/
theorem execFinal_of_absorbing {s : State} {e : Engine} (hp : s.engine.phase = .absorbing)
    (he : finalize s.engine = .ok e) :
    execFinal s = .next ((s.withEngine { e with phase := .finalized }).respond (okResponse 0)) := by
  unfold execFinal
  rw [if_neg (by simp [hp]), if_neg (by simp [hp]), he]

/-- RDDIG, phase by phase. -/
theorem execRddig_of_finalized {s : State} (idx : Fin 8) (hp : s.engine.phase = .finalized) :
    execRddig idx s = .next (s.respond (okResponse s.engine.h[idx])) := by
  simp [execRddig, hp, Engine.digestWord]

theorem execRddig_of_absorbing {s : State} (idx : Fin 8) (hp : s.engine.phase = .absorbing) :
    execRddig idx s = .next (raiseFault .eState s) := by
  simp [execRddig, hp]

theorem execRddig_of_faulted {s : State} (idx : Fin 8) (hp : s.engine.phase = .faulted) :
    execRddig idx s = .next (rejectCommand s) := by
  simp [execRddig, hp]

/-- Everything a step can do: idle, reset, an ILLEGAL word, or a command. -/
theorem step_cases {s t : State} (h : step s = .next t) :
    (s.pending = [] ∧ t = s) ∨
    (∃ rest, s.pending = .hardwareReset :: rest ∧ t = hardwareReset { s with pending := rest }) ∨
    (∃ c rest why, s.pending = .command c :: rest ∧ decode c = .illegal why ∧
      t = raiseFault .eIllegal { s with pending := rest }) ∨
    (∃ c rest i, s.pending = .command c :: rest ∧ decode c = .command i ∧
      exec i { s with pending := rest } = .next t) := by
  unfold step at h
  split at h
  · exact .inl ⟨‹_›, by simpa using h.symm⟩
  · rename_i c rest hp
    unfold issueCommand at h
    split at h
    · rename_i why hd
      exact .inr (.inr (.inl ⟨c, rest, why, hp, hd, by simpa [execIllegal] using h.symm⟩))
    · rename_i i hd
      exact .inr (.inr (.inr ⟨c, rest, i, hp, hd, h⟩))
  · rename_i rest hp
    exact .inr (.inl ⟨rest, hp, by simpa using h.symm⟩)

end Sys2Proof.Machine
end

