-- ==== Sys2Proof/Laws/Message.lean ====
section
/-!
SUPPORT. Laws/Message.lean: blocks of a message, and absorbing a message into an engine whose tail is known.
-/

namespace Sys2Proof.Machine

/-! ## Blocks -/

/-- Sixty-four bytes as a block. -/
def blockOfList (l : List Byte) (h : l.length = 64) : Block := ⟨l.toArray, by simpa using h⟩

@[simp] theorem blockOfList_toList (l : List Byte) (h : l.length = 64) : (blockOfList l h).toList = l := by
  simp [blockOfList]

@[simp] theorem blockOfList_get (l : List Byte) (h : l.length = 64) (j : Nat) (hj : j < 64) :
    (blockOfList l h)[j] = l[j] := by
  simp [blockOfList]

theorem blockOfList_eq_of_toList {block : Block} {l : List Byte} (h : block.toList = l) (hl : l.length = 64) :
    block = blockOfList l hl := by
  subst h
  ext j hj : 1
  simp

/-- A buffer that holds a list of 64 bytes holds its block. -/
theorem buffer_eq_map_of_get {buf : BlockBuffer} {l : List Byte} (hl : l.length = 64)
    (h : ∀ j, (hj : j < 64) → buf[j] = l[j]?) : buf = (blockOfList l hl).map some := by
  ext j hj : 1
  rw [h j hj]
  simp [hl, hj]

theorem completeBlocks_length (m : List Byte) : (completeBlocks m).length = m.length / 64 := by
  simp [completeBlocks]

/-- A message shorter than a block has no complete block. -/
theorem completeBlocks_of_short {m : List Byte} (h : m.length < 64) : completeBlocks m = [] := by
  apply List.eq_nil_of_length_eq_zero
  rw [completeBlocks_length]
  omega

theorem completeBlocks_getElem (m : List Byte) (i : Nat) (h : i < (completeBlocks m).length) (j : Nat) (hj : j < 64)
    (hm : 64 * i + j < m.length) : ((completeBlocks m)[i])[j] = m[64 * i + j] := by
  simp [completeBlocks]

/-- The first block of a message, and the blocks of the rest. -/
theorem completeBlocks_append_block {l : List Byte} (hl : l.length = 64) (r : List Byte) :
    completeBlocks (l ++ r) = blockOfList l hl :: completeBlocks r := by
  apply List.ext_getElem
  · simp only [completeBlocks_length, List.length_append, List.length_cons, hl]
    omega
  · intro i h1 h2
    have hi : i < (l ++ r).length / 64 := by simpa [completeBlocks_length] using h1
    ext j hj : 1
    rw [completeBlocks_getElem _ _ _ _ hj (by omega)]
    cases i with
    | zero =>
      have : 64 * 0 + j < l.length := by omega
      rw [List.getElem_append_left this]
      simp
    | succ i =>
      have hlen : (l ++ r).length = 64 + r.length := by rw [List.length_append, hl]
      have : l.length ≤ 64 * (i + 1) + j := by omega
      rw [List.getElem_append_right this]
      simp only [List.getElem_cons_succ]
      rw [completeBlocks_getElem _ _ _ _ hj (by omega)]
      congr 1
      omega

/-- The bytes of a message behind its complete blocks. -/
def remainder (m : List Byte) : List Byte := m.drop (64 * (m.length / 64))

@[simp] theorem remainder_length (m : List Byte) : (remainder m).length = m.length % 64 := by
  rw [remainder, List.length_drop]
  omega

theorem remainder_of_short {m : List Byte} (h : m.length < 64) : remainder m = m := by
  rw [remainder, Nat.div_eq_of_lt h]
  rfl

theorem remainder_append_block {l : List Byte} (hl : l.length = 64) (r : List Byte) :
    remainder (l ++ r) = remainder r := by
  have h : (l ++ r).length / 64 = r.length / 64 + 1 := by rw [List.length_append, hl]; omega
  have h2 : 64 * (r.length / 64 + 1) = l.length + 64 * (r.length / 64) := by omega
  rw [remainder, remainder, h, h2, List.drop_length_add_append]

/-- Splitting off the complete blocks of a prefix changes neither the blocks nor what is behind them. -/
theorem completeBlocks_append (m r : List Byte) :
    completeBlocks (m ++ r) = completeBlocks m ++ completeBlocks (remainder m ++ r) ∧
    remainder (m ++ r) = remainder (remainder m ++ r) := by
  induction hn : m.length / 64 generalizing m with
  | zero =>
    have h : m.length < 64 := by omega
    rw [completeBlocks_of_short h, remainder_of_short h]
    exact ⟨rfl, rfl⟩
  | succ n ih =>
    obtain ⟨l, m', rfl, hl⟩ : ∃ l m', m = l ++ m' ∧ l.length = 64 :=
      ⟨m.take 64, m.drop 64, (List.take_append_drop 64 m).symm, by rw [List.length_take]; omega⟩
    have hn' : m'.length / 64 = n := by rw [List.length_append, hl] at hn; omega
    obtain ⟨h1, h2⟩ := ih m' hn'
    rw [List.append_assoc, completeBlocks_append_block hl, completeBlocks_append_block hl, remainder_append_block hl,
      remainder_append_block hl, h1, h2]
    exact ⟨rfl, rfl⟩

/-! ## Absorbing -/

/-- The engine's buffer holds exactly the bytes `l`, and they do not fill it. -/
structure Engine.Holds (e : Engine) (l : List Byte) : Prop where
  fill_eq : e.fill = l.length
  short : l.length < 64
  get : ∀ j, (hj : j < 64) → e.buf[j] = l[j]?

theorem Engine.Holds.tail_eq {e : Engine} {l : List Byte} (h : e.Holds l) : e.tail = l := by
  have hs := h.short
  have : e.buf.toList.take e.fill = l.map some := by
    apply List.ext_getElem
    · simp [h.fill_eq]; omega
    · intro j h1 h2
      have hj : j < l.length := by simpa using h2
      simp [h.get j (by omega), hj]
  rw [Engine.tail, this, List.filterMap_map]
  simp

/-- In a valid ABSORBING engine the buffer holds the tail. -/
theorem Engine.Valid.holds_tail {e : Engine} (hv : e.Valid) (hp : e.phase = .absorbing) : e.Holds e.tail := by
  obtain ⟨hFill, -, -, -, hBuf⟩ := hv
  have hb := hBuf hp
  have hw : ∀ j, (hj : j < e.fill) → ∃ b, e.buf[j]'(by omega) = some b := fun j hj =>
    Option.isSome_iff_exists.mp ((hb ⟨j, by omega⟩).mpr hj)
  have hu : ∀ j, (hj : j < 64) → e.fill ≤ j → e.buf[j] = none := fun j hj hle => by
    have := (hb ⟨j, hj⟩).not.mpr (by simpa using hle)
    simpa using this
  let l : List Byte := List.ofFn fun j : Fin e.fill => (e.buf[j.val]'(by omega)).get (by
    obtain ⟨b, hb⟩ := hw j.val j.isLt; simp [hb])
  have hl : e.Holds l := by
    refine ⟨by simp [l], by simpa [l] using hFill, fun j hj => ?_⟩
    by_cases h : j < e.fill
    · simp [l, h]
    · rw [hu j hj (by omega)]
      simp [l, h]
  rw [hl.tail_eq]
  exact hl

theorem Engine.Holds.of_unwritten {e : Engine} (hf : e.fill = 0) (hb : e.buf = unwrittenBuffer) : e.Holds [] :=
  ⟨by simpa using hf, by simp, fun j hj => by simp [hb]⟩

/-- AbsorbByte that does not fill the block. -/
theorem absorbByte_of_short {e : Engine} {l : List Byte} (h : e.Holds l) (b : Byte) (hs : l.length + 1 < 64) :
    ∃ e', absorbByte b e = .ok e' ∧ e'.Holds (l ++ [b]) ∧ e'.h = e.h := by
  have hf := h.fill_eq
  refine ⟨_, absorbByte_eq_ok_iff.mpr ⟨by omega, .inl ⟨by omega, rfl⟩⟩, ⟨?_, ?_, ?_⟩, rfl⟩
  · simp [hf]
  · simpa using hs
  · intro j hj
    simp only [Vector.getElem_set, h.get j hj, hf]
    by_cases hje : l.length = j
    · subst hje; simp
    · rw [if_neg hje]
      by_cases hlt : j < l.length
      · rw [List.getElem?_append_left hlt]
      · rw [List.getElem?_eq_none (by omega), List.getElem?_eq_none (by simp; omega)]

/-- AbsorbByte that fills the block: one compression. -/
theorem absorbByte_of_full {e : Engine} {l : List Byte} (h : e.Holds l) (b : Byte) (hs : (l ++ [b]).length = 64) :
    ∃ e', absorbByte b e = .ok e' ∧ e'.Holds [] ∧ e'.h = compress e.h (blockOfList (l ++ [b]) hs) := by
  have hf := h.fill_eq
  have hs' : l.length + 1 = 64 := by simpa using hs
  refine ⟨_, absorbByte_eq_ok_iff.mpr ⟨by omega, .inr ⟨by omega, blockOfList (l ++ [b]) hs, ?_, rfl⟩⟩,
    Engine.Holds.of_unwritten rfl rfl, rfl⟩
  refine buffer_eq_map_of_get hs fun j hj => ?_
  simp only [Vector.getElem_set, h.get j hj, hf]
  by_cases hje : l.length = j
  · subst hje; simp
  · rw [if_neg hje, List.getElem?_append_left (by omega)]

/-- Absorbing bytes is a fold of Compress over the complete blocks of tail and bytes together; what is behind them stays in the
buffer. -/
theorem absorbBytes_of_holds (bs : List Byte) {e : Engine} {l : List Byte} (h : e.Holds l) :
    ∃ e', absorbBytes bs e = .ok e' ∧ e'.Holds (remainder (l ++ bs)) ∧
      e'.h = (completeBlocks (l ++ bs)).foldl compress e.h := by
  induction bs generalizing e l with
  | nil =>
    refine ⟨e, rfl, ?_, ?_⟩
    · rwa [List.append_nil, remainder_of_short h.short]
    · rw [List.append_nil, completeBlocks_of_short h.short]; rfl
  | cons b bs ih =>
    rw [absorbBytes_cons, List.append_cons]
    have hs := h.short
    by_cases hc : l.length + 1 < 64
    · obtain ⟨e1, h1, h2, h3⟩ := absorbByte_of_short h b hc
      rw [h1, ← h3]
      exact ih h2
    · have hfull : (l ++ [b]).length = 64 := by simp; omega
      obtain ⟨e1, h1, h2, h3⟩ := absorbByte_of_full h b hfull
      rw [h1, completeBlocks_append_block hfull, remainder_append_block hfull, List.foldl_cons, ← h3]
      exact ih h2

/-! ## Padding -/

theorem zeroCount_lt (L : Nat) : zeroCount L < 64 := by
  unfold zeroCount; omega

theorem zeroCount_add (L : Nat) : (zeroCount L + L) % 64 = 55 := by
  unfold zeroCount; omega

@[simp] theorem pad_length (L : Nat) : (pad L).length = 9 + zeroCount L := by
  simp [pad]; omega

/-- The length field a buffer ends with after `writeLength`. -/
theorem pad_getElem? (L k : Nat) :
    (pad L)[k]? = if k = 0 then some 0x80 else if k ≤ zeroCount L then some 0
      else (bytes64 (BitVec.ofNat 64 (8 * L))).toList[k - (zeroCount L + 1)]? := by
  unfold pad
  cases k with
  | zero => simp
  | succ k =>
    rw [List.append_assoc, List.singleton_append, List.getElem?_cons_succ, if_neg (by omega)]
    by_cases h : k < zeroCount L
    · rw [if_pos (by omega), List.getElem?_append_left (by simpa using h)]
      simp [h]
    · rw [if_neg (by omega), List.getElem?_append_right (by simpa using h)]
      simp

/-- With room for the length field, tail and padding are one block. -/
theorem tail_pad_length_of_room {L : Nat} {l : List Byte} (hl : L % 64 = l.length) (hroom : l.length ≤ 55) :
    (l ++ pad L).length = 64 := by
  have := zeroCount_lt L
  have := zeroCount_add L
  simp
  omega

/-- Finalize with room for the length field (R201, R202). -/
theorem finalize_of_room {e : Engine} {l : List Byte} (h : e.Holds l) (hl : e.len % 64 = l.length)
    (hlen : 8 * e.len < 2 ^ 64) (hroom : l.length ≤ 55) :
    finalize e = .ok { e with
      h := compress e.h (blockOfList (l ++ pad e.len) (tail_pad_length_of_room hl hroom)),
      buf := (blockOfList (l ++ pad e.len) (tail_pad_length_of_room hl hroom)).map some, fill := 0 } := by
  have hf := h.fill_eq
  have hs := h.short
  have hz := zeroCount_lt e.len
  have hz2 := zeroCount_add e.len
  have hz3 : zeroCount e.len = 55 - l.length := by omega
  refine finalize_eq_ok_iff.mpr ⟨by omega, hlen, .inl ⟨by omega, _, ?_, rfl⟩⟩
  refine buffer_eq_map_of_get (tail_pad_length_of_room hl hroom) fun j hj => ?_
  rw [List.getElem?_append, pad_getElem?]
  simp only [writeLength_get, zeroFill_get, Vector.getElem_set, h.get j hj, hf]
  by_cases h1 : 56 ≤ j
  · simp only [h1, dif_pos]
    rw [if_neg (by omega), if_neg (by omega), if_neg (by omega)]
    have : j - l.length - (zeroCount e.len + 1) = j - 56 := by omega
    rw [this]
    simp [show j - 56 < 8 by omega]
  · rw [dif_neg h1]
    by_cases h2 : l.length + 1 ≤ j
    · rw [if_pos ⟨h2, by omega⟩, if_neg (by omega), if_neg (by omega), if_pos (by omega)]
    · rw [if_neg (by omega)]
      by_cases h3 : l.length = j
      · rw [if_pos h3, if_neg (by omega), if_pos (by omega)]
      · rw [if_neg h3, if_pos (by omega)]

/-- The first of the two blocks: the tail, the terminator and zeros to the end (R201). -/
def twoBlockFirst (l : List Byte) : List Byte := l ++ [0x80] ++ List.replicate (63 - l.length) 0

/-- The second of the two blocks: 56 zeros and the length field; no message byte (R202). -/
def twoBlockSecond (L : Nat) : List Byte := List.replicate 56 0 ++ (bytes64 (BitVec.ofNat 64 (8 * L))).toList

theorem twoBlockFirst_length {l : List Byte} (hs : l.length < 64) : (twoBlockFirst l).length = 64 := by
  simp [twoBlockFirst]; omega

theorem twoBlockSecond_length (L : Nat) : (twoBlockSecond L).length = 64 := by simp [twoBlockSecond]

/-- Without room for the length field, tail and padding are the two blocks. -/
theorem tail_pad_of_no_room {L : Nat} {l : List Byte} (hl : L % 64 = l.length) (hroom : 56 ≤ l.length) :
    l ++ pad L = twoBlockFirst l ++ twoBlockSecond L := by
  have hz := zeroCount_lt L
  have hz2 := zeroCount_add L
  have : zeroCount L = (63 - l.length) + 56 := by omega
  simp [twoBlockFirst, twoBlockSecond, pad, this, List.replicate_add]

/-- Finalize without room for the length field (R201, R202). -/
theorem finalize_of_no_room {e : Engine} {l : List Byte} (h : e.Holds l) (hlen : 8 * e.len < 2 ^ 64)
    (hroom : 56 ≤ l.length) :
    finalize e = .ok { e with
      h := compress (compress e.h (blockOfList _ (twoBlockFirst_length h.short)))
        (blockOfList _ (twoBlockSecond_length e.len)),
      buf := (blockOfList _ (twoBlockSecond_length e.len)).map some, fill := 0 } := by
  have hf := h.fill_eq
  have hs := h.short
  refine finalize_eq_ok_iff.mpr ⟨by omega, hlen, .inr ⟨by omega, _, _, ?_, ?_, rfl⟩⟩
  · refine buffer_eq_map_of_get (twoBlockFirst_length h.short) fun j hj => ?_
    simp only [zeroFill_get, Vector.getElem_set, h.get j hj, hf, twoBlockFirst, List.append_assoc]
    rw [List.getElem?_append]
    by_cases h3 : l.length + 1 ≤ j
    · rw [if_pos ⟨h3, hj⟩, if_neg (by omega), List.singleton_append,
        show j - l.length = (j - l.length - 1) + 1 by omega, List.getElem?_cons_succ,
        List.getElem?_replicate, if_pos (by omega)]
    · rw [if_neg (by omega)]
      by_cases h4 : l.length = j
      · rw [if_pos h4, if_neg (by omega), show j - l.length = 0 by omega]
        simp
      · rw [if_neg h4, if_pos (by omega)]
  · refine buffer_eq_map_of_get (twoBlockSecond_length e.len) fun j hj => ?_
    simp only [writeLength_get, zeroFill_get, twoBlockSecond]
    by_cases h3 : 56 ≤ j
    · rw [dif_pos h3, List.getElem?_append_right (by simpa using h3)]
      simp [show j - 56 < 8 by omega]
    · rw [dif_neg h3, if_pos (by omega), List.getElem?_append_left (by simp; omega), List.getElem?_replicate,
        if_pos (by omega)]

/-- Finalize on an engine whose tail is known leaves in `H` the fold of Compress over the blocks of tail and padding (R203). -/
theorem finalize_of_holds {e : Engine} {l : List Byte} (h : e.Holds l) (hl : e.len % 64 = l.length)
    (hlen : 8 * e.len < 2 ^ 64) :
    ∃ e', finalize e = .ok e' ∧ e'.h = (completeBlocks (l ++ pad e.len)).foldl compress e.h := by
  by_cases hroom : l.length ≤ 55
  · refine ⟨_, finalize_of_room h hl hlen hroom, ?_⟩
    have := completeBlocks_append_block (tail_pad_length_of_room hl hroom) []
    rw [List.append_nil] at this
    rw [this, completeBlocks_of_short (by simp)]
    rfl
  · refine ⟨_, finalize_of_no_room h hlen (by omega), ?_⟩
    have := completeBlocks_append_block (twoBlockSecond_length e.len) []
    rw [List.append_nil] at this
    rw [tail_pad_of_no_room hl (by omega), completeBlocks_append_block (twoBlockFirst_length h.short), this,
      completeBlocks_of_short (by simp)]
    rfl

/-! ## The engine that has absorbed a message -/

theorem absorbedEngine_holds (m : List Byte) : (absorbedEngine m).Holds (remainder m) := by
  refine ⟨by simp [absorbedEngine], by simp; omega, fun j hj => ?_⟩
  simp [absorbedEngine, remainder]

/-- An engine is fixed by what it holds and its scalar fields. -/
theorem Engine.Holds.eq_absorbedEngine {e : Engine} {m : List Byte} (h : e.Holds (remainder m))
    (hH : e.h = chainingValue m) (hLen : e.len = m.length) (hp : e.phase = .absorbing) (hc : e.cause = .noFault) :
    e = absorbedEngine m := by
  have hbuf : e.buf = (absorbedEngine m).buf := by
    ext j hj : 1
    rw [h.get j hj, (absorbedEngine_holds m).get j hj]
  have hfill : e.fill = (absorbedEngine m).fill := by
    rw [h.fill_eq, (absorbedEngine_holds m).fill_eq]
  cases e
  simp only at hH hLen hp hc hbuf hfill
  subst hH hLen hp hc hbuf hfill
  rfl

end Sys2Proof.Machine
end

