-- ==== Sys2Proof/Laws/PerInstr.lean ====
section
/-!
SUPPORT. Laws/PerInstr.lean: the per-instruction family OpcodeField, one lemma per constructor of `Instr`.
-/

namespace Sys2Proof.Laws.OpcodeField

/-- The opcode of R82's table. -/
def opcode : Instr → BitVec 4
  | .init => 0x1
  | .update _ => 0x2
  | .final => 0x3
  | .rddig _ => 0x4
  | .rdstat => 0x5

/-- The command's word has its opcode in OP (R82, R85) and zero in RES (R83). -/
def Statement (i : Instr) : Prop := opField (encode i) = opcode i ∧ resField (encode i) = 0

theorem init : Statement .init := ⟨opField_commandWord .., resField_commandWord ..⟩
theorem update (bytes : List Byte) : Statement (.update bytes) := ⟨opField_commandWord .., resField_commandWord ..⟩
theorem final : Statement .final := ⟨opField_commandWord .., resField_commandWord ..⟩
theorem rddig (idx : Fin 8) : Statement (.rddig idx) := ⟨opField_commandWord .., resField_commandWord ..⟩
theorem rdstat : Statement .rdstat := ⟨opField_commandWord .., resField_commandWord ..⟩

end Sys2Proof.Laws.OpcodeField
end

