-- ==== Sys2Proof/Laws/Valid.lean ====
section
/-!
SUPPORT. Laws/Valid.lean: what absorbing bytes does to each field, and that each shared operation keeps `Engine.Valid`.
-/

namespace Sys2Proof.Machine

/-- The bit length of a legal message fits the length field (R28). -/
theorem bitLength_lt {n : Nat} (h : n ≤ Config.maxLen) : 8 * n < 2 ^ 64 := by
  unfold Config.maxLen at h
  omega

/-- In a valid ABSORBING engine LEN counts the tail modulo 64 (R29). -/
theorem Engine.Valid.len_mod {e : Engine} (hv : e.Valid) (hp : e.phase = .absorbing) : e.len % 64 = e.tail.length := by
  rw [← (hv.holds_tail hp).fill_eq]
  exact (hv.2.2.2.1.1 hp).symm

/-- Bytes that do not reach the end of the block: stored at `BUF[FILL]` and on, nothing else of the buffer changes. -/
theorem absorbBytes_of_no_boundary {bs : List Byte} {e e' : Engine} (h : absorbBytes bs e = .ok e')
    (hlt : e.fill + bs.length < 64) :
    e'.h = e.h ∧ e'.fill = e.fill + bs.length ∧
    ∀ j, (hj : j < 64) → e'.buf[j] =
      if e.fill ≤ j ∧ j < e.fill + bs.length then bs[j - e.fill]? else e.buf[j] := by
  induction bs generalizing e with
  | nil =>
    cases h
    exact ⟨rfl, rfl, fun j hj => by rw [if_neg]; simp⟩
  | cons b bs ih =>
    rw [absorbBytes_cons] at h
    simp only [List.length_cons] at hlt ⊢
    cases hb : absorbByte b e with
    | error f => rw [hb] at h; cases h
    | ok e1 =>
      rw [hb] at h
      obtain ⟨hFill, ⟨hshort, rfl⟩ | ⟨hfull, -⟩⟩ := absorbByte_eq_ok_iff.mp hb
      · obtain ⟨hH, hF, hB⟩ := ih h (by simp; omega)
        refine ⟨hH, by rw [hF]; simp; omega, fun j hj => ?_⟩
        rw [hB j hj]
        simp only [Vector.getElem_set]
        by_cases hin : e.fill + 1 ≤ j ∧ j < e.fill + 1 + bs.length
        · rw [if_pos hin, if_pos (by omega), show j - e.fill = (j - (e.fill + 1)) + 1 by omega, List.getElem?_cons_succ]
        · rw [if_neg hin]
          by_cases hj' : e.fill = j
          · subst hj'
            rw [if_pos rfl, if_pos (by omega)]
            simp
          · rw [if_neg hj', if_neg (by omega)]
      · omega

/-- At most four bytes that reach the end of the block: one compression, and the bytes left over start the emptied buffer. -/
theorem absorbBytes_of_boundary {bs : List Byte} {e e' : Engine} (h : absorbBytes bs e = .ok e')
    (hFill : e.fill < 64) (hge : 64 ≤ e.fill + bs.length) (hle : bs.length ≤ 4) :
    e'.fill = e.fill + bs.length - 64 ∧ (∃ block, e'.h = compress e.h block) ∧
    ∀ j, (hj : j < 64) → e'.buf[j] = if j < e'.fill then bs[64 - e.fill + j]? else none := by
  induction bs generalizing e with
  | nil => simp at hge; omega
  | cons b bs ih =>
    rw [absorbBytes_cons] at h
    simp only [List.length_cons] at hge hle ⊢
    cases hb : absorbByte b e with
    | error f => rw [hb] at h; cases h
    | ok e1 =>
      rw [hb] at h
      obtain ⟨hFill, ⟨hshort, rfl⟩ | ⟨hfull, block, -, rfl⟩⟩ := absorbByte_eq_ok_iff.mp hb
      · obtain ⟨hF, hH, hB⟩ := ih h hshort (by simp; omega) (by omega)
        refine ⟨by rw [hF]; simp; omega, hH, fun j hj => ?_⟩
        rw [hB j hj]
        by_cases hj' : j < e'.fill
        · rw [if_pos hj', if_pos hj', show 64 - e.fill + j = (64 - (e.fill + 1) + j) + 1 by omega,
            List.getElem?_cons_succ]
        · rw [if_neg hj', if_neg hj']
      · obtain ⟨hH, hF, hB⟩ := absorbBytes_of_no_boundary h (by simp; omega)
        have hF' : e'.fill = bs.length := by simpa using hF
        refine ⟨by omega, ⟨block, hH⟩, fun j hj => ?_⟩
        rw [hB j hj, hF']
        simp only [Nat.zero_le, true_and, Nat.zero_add, Nat.sub_zero]
        by_cases hj' : j < bs.length
        · rw [if_pos hj', if_pos hj', show 64 - e.fill + j = j + 1 by omega, List.getElem?_cons_succ]
        · rw [if_neg hj', if_neg hj']
          simp

/-- The engine of reset and of INIT is valid. -/
theorem initEngine_valid : initEngine.Valid := by decide

/-- AbsorbByte within the length limit keeps an ABSORBING engine valid. -/
theorem absorbByte_keeps_valid {b : Byte} {e e' : Engine} (hv : e.Valid) (hp : e.phase = .absorbing)
    (hl : e.len + 1 ≤ Config.maxLen) (h : absorbByte b e = .ok e') : e'.Valid ∧ e'.phase = .absorbing := by
  obtain ⟨-, -, hc, hf, hb⟩ := hv
  have hb := hb hp
  have hf := hf.1 hp
  obtain ⟨hFill, ⟨hlt, rfl⟩ | ⟨hfull, block, -, rfl⟩⟩ := absorbByte_eq_ok_iff.mp h
  · refine ⟨⟨hlt, hl, hc, ⟨fun _ => by simp; omega, by simp [hp], by simp [hp]⟩, fun _ j => ?_⟩, hp⟩
    have := hb j
    simp only [Fin.getElem_fin, Vector.getElem_set] at this ⊢
    by_cases hj : e.fill = j.val
    · simp [hj]
    · rw [if_neg hj, this]
      omega
  · exact ⟨⟨by simp, hl, hc, ⟨fun _ => by simp; omega, by simp [hp], by simp [hp]⟩, fun _ j => by simp⟩, hp⟩

/-- So does a whole UPDATE's byte list. -/
theorem absorbBytes_keeps_valid {bs : List Byte} {e e' : Engine} (hv : e.Valid) (hp : e.phase = .absorbing)
    (hl : e.len + bs.length ≤ Config.maxLen) (h : absorbBytes bs e = .ok e') : e'.Valid ∧ e'.phase = .absorbing := by
  induction bs generalizing e with
  | nil => cases h; exact ⟨hv, hp⟩
  | cons b bs ih =>
    rw [absorbBytes_cons] at h
    simp only [List.length_cons] at hl
    cases hb : absorbByte b e with
    | error f => rw [hb] at h; cases h
    | ok e1 =>
      rw [hb] at h
      obtain ⟨hv1, hp1⟩ := absorbByte_keeps_valid hv hp (by omega) hb
      exact ih hv1 hp1 (by have := (absorbByte_frame hb).1; omega) h

/-- Fault entry keeps an engine valid. -/
theorem enterFault_keeps_valid {e : Engine} {c : Cause} (hc : c ≠ .noFault) (hv : e.Valid) : (e.enterFault c).Valid := by
  by_cases hp : e.phase = .faulted
  · rwa [Engine.enterFault_of_faulted _ hp]
  · rw [Engine.enterFault_of_running _ hp]
    obtain ⟨hFill, hLen, -, hf, -⟩ := hv
    refine ⟨hFill, hLen, ⟨fun h => absurd h hc, fun h => absurd rfl h⟩, ⟨by simp, by simp, fun _ => ?_⟩, fun h => by cases h⟩
    rcases h : e.phase with _ | _ | _
    · exact .inl (hf.1 h)
    · exact .inr (hf.2.1 h)
    · exact absurd h hp

/-- Finalize and the phase change of FINAL keep an engine valid. -/
theorem finalize_keeps_valid {e e' : Engine} (hv : e.Valid) (hp : e.phase = .absorbing) (h : finalize e = .ok e') :
    { e' with phase := .finalized }.Valid := by
  obtain ⟨-, hLen, hc, -, -⟩ := hv
  obtain ⟨f1, f2, f3, f4⟩ := finalize_frame h
  exact ⟨by simp [f4], by simp [f1, hLen], ⟨fun _ => by simp, fun _ => f3.trans (hc.mpr (by simp [hp]))⟩,
    ⟨by simp, by simp [f4], by simp⟩, by simp [Engine.BufferAgrees]⟩

end Sys2Proof.Machine
end

