-- ==== Sys2Proof/Tests/Slice0.lean ====
section
/-!
SUPPORT. Tests/Slice0.lean: small tests, each expected value from spec/ (cited), and a witness for every statement with hypotheses.
-/

namespace Sys2Proof.Tests

open Sys2Proof Sys2Proof.Machine

/-! ## Well-formedness -/

theorem test_update_of_no_bytes_is_ill_formed : (Instr.update []).wellFormed = false := by decide
theorem test_update_of_five_bytes_is_ill_formed : (Instr.update [1, 2, 3, 4, 5]).wellFormed = false := by decide
theorem test_update_of_one_and_four_bytes_is_well_formed :
    (Instr.update [1]).wellFormed = true ∧ (Instr.update [1, 2, 3, 4]).wellFormed = true := by decide

/-! ## Decoding: words written out field by field from 30_encoding.md R80, R91 -/

/-- OP 0001, ARG 0000, RES 24 zeros, DATA 32 zeros. -/
theorem test_decode_init : decode (0b0001#4 ++ 0b0000#4 ++ 0#24 ++ 0#32) = .command .init := by decide
/-- OP 0010, ARG 0001 (NB = 2), DATA 'b' 'c' 0 0 (P2's third line, 0x2100000062630000). -/
theorem test_decode_update :
    decode (0b0010#4 ++ 0b0001#4 ++ 0#24 ++ (0x62#8 ++ 0x63#8 ++ 0x00#8 ++ 0x00#8)) =
      .command (.update [0x62, 0x63]) := by decide
/-- OP 0010, ARG 0011 (NB = 4), the four lanes from bit 31 down. -/
theorem test_decode_update_of_four :
    decode (0b0010#4 ++ 0b0011#4 ++ 0#24 ++ (0x80#8 ++ 0x00#8 ++ 0x00#8 ++ 0x01#8)) =
      .command (.update [0x80, 0, 0, 1]) := by decide
/-- OP 0011. -/
theorem test_decode_final : decode (0b0011#4 ++ 0b0000#4 ++ 0#24 ++ 0#32) = .command .final := by decide
/-- OP 0100, ARG 0iii with iii = 101. -/
theorem test_decode_rddig : decode (0b0100#4 ++ 0b0101#4 ++ 0#24 ++ 0#32) = .command (.rddig 5) := by decide
/-- OP 0101. -/
theorem test_decode_rdstat : decode (0b0101#4 ++ 0b0000#4 ++ 0#24 ++ 0#32) = .command .rdstat := by decide
/-- V40's ILLEGAL rows. -/
theorem test_decode_illegal :
    decode 0x2400000061000000 = .illegal .operandBitsSet ∧ decode 0x3000000000000001 = .illegal .operandBitsSet ∧
    decode 0x1100000000000000 = .illegal .operandBitsSet ∧ decode 0x4800000000000000 = .illegal .operandBitsSet ∧
    decode 0x6000000000000000 = .illegal .reservedOpcode ∧ decode 0xf000000000000000 = .illegal .reservedOpcode ∧
    decode 0x0000000000000000 = .illegal .reservedOpcode ∧ decode 0x1000000100000000 = .illegal .reservedBitsSet := by
  decide
/-- The words of R91's table. -/
theorem test_encode :
    encode .init = 0x1000000000000000 ∧ encode (.update [0x61]) = 0x2000000061000000 ∧
    encode (.update [0x61, 0x62, 0x63]) = 0x2200000061626300 ∧ encode .final = 0x3000000000000000 ∧
    encode (.rddig 7) = 0x4700000000000000 ∧ encode .rdstat = 0x5000000000000000 := by decide
theorem test_decodeTableWord :
    decodeTableWord 64 0x4300000000000000 = some (.rddig 3) ∧ decodeTableWord 64 0 = none := by decide

/-! ## The datapath: V10, V11, V12, V20, V24, V30 -/

theorem test_rotr_shr : rotr 0x12345678 7 = 0xf02468ac ∧ shr 0x12345678 3 = 0x02468acf := by decide
theorem test_smallSigma :
    smallSigma0 0x12345678 = 0xe7fce6ee ∧ smallSigma1 0x12345678 = 0xa1f78649 ∧
    smallSigma0 0xffffffff = 0x1fffffff ∧ smallSigma1 0xffffffff = 0x003fffff := by decide
theorem test_bigSigma : bigSigma0 0x6a09e667 = 0xce20b47e ∧ bigSigma1 0x6a09e667 = 0x55b65510 := by decide
theorem test_choose_majority :
    choose 0xff00ff00 0x12345678 0x9abcdef0 = 0x12bc56f0 ∧ majority 0xff00ff00 0x12345678 0x9abcdef0 = 0x9a34de70 := by
  decide
theorem test_word_addition_wraps : (0xfffffffe : Word) + 0xffffffff = 0xfffffffd := by decide

/-- The "abc" padded block of V20. -/
def abcBlock : Block :=
  Vector.ofFn fun j =>
    if j.val = 0 then 0x61 else if j.val = 1 then 0x62 else if j.val = 2 then 0x63 else if j.val = 3 then 0x80
    else if j.val = 63 then 0x18 else 0

theorem test_schedule_of_abc :
    (schedule abcBlock)[0] = 0x61626380 ∧ (schedule abcBlock)[15] = 0x00000018 ∧
    (schedule abcBlock)[17] = 0x000f0000 ∧ (schedule abcBlock)[63] = 0x12b1edeb := by decide +kernel
/-- Row 0 of V21. -/
theorem test_round_zero_of_abc :
    roundStep (Working.ofDigestState initialHash) roundConstants[0] 0x61626380 =
      ⟨0x5d6aebcd, 0x6a09e667, 0xbb67ae85, 0x3c6ef372, 0xfa2a4622, 0x510e527f, 0x9b05688c, 0x1f83d9ab⟩ := by decide
/-- V21 and V3: the final sums. -/
theorem test_compress_of_abc :
    compress initialHash abcBlock =
      #v[0xba7816bf, 0x8f01cfea, 0x414140de, 0x5dae2223, 0xb00361a3, 0x96177a9c, 0xb410ff61, 0xf20015ad] := by
  decide +kernel
/-- V24, second row. -/
theorem test_compress_of_zeros :
    compress (Vector.replicate 8 0) (Vector.replicate 64 0) =
      #v[0x7ca51614, 0x425c3ba8, 0xce54dd2f, 0xc2020ae7, 0xb6e574d1, 0x98136d0f, 0xae7e26cc, 0xbf0be7a6] := by
  decide +kernel
/-- V30 rows 3 and 55, and the length field of MAX_LEN. -/
theorem test_pad :
    pad 3 = 0x80 :: List.replicate 59 0 ++ [0x18] ∧ pad 55 = [0x80, 0, 0, 0, 0, 0, 0, 0x01, 0xb8] ∧
    (pad 56).length = 72 ∧ (pad Config.maxLen).drop 57 = [0xff, 0xff, 0xff, 0xff, 0xff, 0xff, 0xff, 0xf8] := by
  decide

/-! ## Commands: V41, V42, P4 -/

/-- A state with `fill` bytes `'a'` in the buffer and `H0` in `H`. -/
def sample (phase : Phase) (cause : Cause) (fill len : Nat) : State :=
  { engine :=
      { h := initialHash, buf := Vector.ofFn fun j => if j.val < fill then some 0x61 else none, fill := fill, len := len,
        phase := phase, cause := cause }
    pending := [], responses := [] }

/-- The state after a step, or the state it started from. -/
def stateAfter (o : StepOutcome) (s : State) : State :=
  match o with
  | .next t => t
  | .fault _ | .refused _ => s

theorem test_init_recovers :
    exec .init (sample .faulted .eState 5 5) = .next { State.reset with responses := [⟨.ok, 0⟩] } := rfl
/-- V41, first row: the block is compressed after the second byte, and two bytes are left. -/
theorem test_update_over_the_boundary :
    let e := (stateAfter (exec (.update [0x61, 0x61, 0x61, 0x61]) (sample .absorbing .noFault 62 62)) State.reset).engine
    e.fill = 2 ∧ e.len = 66 ∧ e.tail = [0x61, 0x61] ∧
    e.h = #v[0xdf5bb81c, 0xe81e0626, 0xfb45a894, 0x4fd40f31, 0xb25e6816, 0xd6d499c1, 0xab904929, 0x00635e66] := by
  decide +kernel
/-- R112's example. -/
theorem test_update_of_abc :
    let e := (stateAfter (exec (.update [0x61, 0x62, 0x63]) State.reset) (sample .faulted .eState 0 0)).engine
    e.fill = 3 ∧ e.len = 3 ∧ e.tail = [0x61, 0x62, 0x63] ∧ e.h = initialHash := by decide
/-- V41, third row: two compressions. -/
theorem test_final_of_fifty_six_bytes :
    let e := (stateAfter (exec .final (sample .absorbing .noFault 56 56)) State.reset).engine
    e.phase = .finalized ∧ e.fill = 0 ∧ e.len = 56 ∧
    e.h = #v[0xb35439a4, 0xac6f0948, 0xb6d6f9e3, 0xc6af0f5f, 0x590ce20f, 0x1bde7090, 0xef797068, 0x6ec6738a] := by
  decide +kernel
/-- V1: INIT; FINAL. -/
theorem test_final_of_the_empty_message :
    (stateAfter (exec .final State.reset) State.reset).engine.h =
      #v[0xe3b0c442, 0x98fc1c14, 0x9afbf4c8, 0x996fb924, 0x27ae41e4, 0x649b934c, 0xa495991b, 0x7852b855] := by
  decide +kernel
theorem test_rddig_reads_word_seven :
    stateAfter (exec (.rddig 7) (sample .finalized .noFault 0 3)) State.reset =
      { sample .finalized .noFault 0 3 with responses := [⟨.ok, 0x5be0cd19⟩] } := by decide
/-- V42: CAUSE 3, PHASE 2. -/
theorem test_rdstat_after_overflow :
    (stateAfter (exec .rdstat (sample .faulted .eLenOvf 63 63)) State.reset).responses = [⟨.ok, 0x00000032⟩] := by decide
/-- V42: from LEN = M - 2, four bytes overflow and two reach the limit. -/
theorem test_update_at_the_limit :
    stateAfter (exec (.update [0x61, 0x61, 0x61, 0x61]) (sample .absorbing .noFault 61 (Config.maxLen - 2))) State.reset =
        { sample .faulted .eLenOvf 61 (Config.maxLen - 2) with responses := [⟨.fault, 0⟩] } ∧
    (stateAfter (exec (.update [0x61, 0x61]) (sample .absorbing .noFault 61 (Config.maxLen - 2))) State.reset).engine =
        (sample .absorbing .noFault 63 Config.maxLen).engine := by decide
/-- V42, priority: E_STATE before E_LENOVF. -/
theorem test_update_in_finalized :
    (stateAfter (exec (.update [0x61]) (sample .finalized .noFault 0 Config.maxLen)) State.reset).engine.cause = .eState := by
  decide
/-- V42: the first cause is kept. -/
theorem test_illegal_word_in_faulted :
    stateAfter (step ({ sample .faulted .eState 0 0 with pending := [.command 0] })) State.reset =
      { sample .faulted .eState 0 0 with responses := [⟨.fault, 0⟩] } := by decide
/-- R270: no response. -/
theorem test_hardware_reset :
    step { sample .faulted .eState 9 9 with pending := [.hardwareReset] } = .next State.reset := rfl
/-- The first step after reset runs the word that was put where it fetches. -/
theorem test_withFetchWord :
    step (State.reset.withFetchWord 64 0x2000000061000000) = exec (.update [0x61]) State.reset := rfl

/-! ## Assembler: R91, R92 -/

theorem test_absorb_expands :
    (AsmLine.absorb [1, 2, 3, 4, 5]).expand = [.update [1, 2, 3, 4], .update [5]] ∧
    (AsmLine.absorb []).expand = [] := by decide
/-- `UPDATE 'a', 0x62, 99 ;x`. -/
theorem test_parse_update :
    parseLine ['U', 'P', 'D', 'A', 'T', 'E', ' ', Char.ofNat 39, 'a', Char.ofNat 39, ',', '0', 'x', '6', '2', ',', ' ',
      '9', '9', ' ', ';', 'x'] = some (some (.command (.update [0x61, 0x62, 0x63]))) := by decide
theorem test_disassemble_drops_ignored_lanes :
    disassemble 0x20000000610000FF = some (commandText (.update [0x61])) := by decide

/-! ## Witnesses: a state and operands that meet the hypotheses of each statement, at its boundaries -/

theorem test_witness_DecodeOfEncodeIsTheCommand :
    (Instr.update [1, 2, 3, 4]).wellFormed = true ∧ (Instr.rddig 7).wellFormed = true := by decide
theorem test_witness_EncodeOfDecodeIsCanonical : decode 0x21000000616263FF = .command (.update [0x61, 0x62]) := by decide
theorem test_witness_UpdateOperandsAreTheFirstLanes :
    let c : CommandWord := 0x23000000616263FF
    let d : CommandWord := 0x2400000061000000
    (c.extractLsb' 60 4 = 0x2 ∧ c.extractLsb' 58 2 = 0 ∧ c.extractLsb' 32 24 = 0) ∧
    (d.extractLsb' 60 4 = 0x2 ∧ d.extractLsb' 58 2 ≠ 0) ∧
    ((Instr.update [1, 2, 3]).wellFormed = true ∧ [(1 : Byte), 2, 3].length ≤ 3 ∧ 3 < 4) := by decide
theorem test_witness_DecodeMatchesTheOpcodeTable :
    (⟨"UPDATE", 0x2000000000000000, 0xFCFFFFFF00000000⟩ : TableRow) ∈ opcodeTable := by decide
theorem test_witness_AssemblingTheCanonicalLineGivesTheWord : (Instr.update [0, 0xff]).wellFormed = true := by decide
theorem test_witness_StepRunsTheDecodedCommand :
    let s : State := { State.reset with pending := [.command 0x4700000000000000] }
    s.pending = .command 0x4700000000000000 :: [] ∧ decode 0x4700000000000000 = .command (.rddig 7) := by decide
theorem test_witness_IllegalWordRaisesEIllegal :
    let s : State := { State.reset with pending := [.command 0] }
    let u : State := { sample .faulted .eState 0 0 with pending := [.command 0] }
    (s.pending = .command 0 :: [] ∧ decode 0 = .illegal .reservedOpcode ∧ s.engine.phase ≠ .faulted) ∧
    (u.pending = .command 0 :: [] ∧ u.engine.phase = .faulted) := by decide
theorem test_witness_HardwareResetGivesTheResetState :
    { sample .finalized .noFault 0 3 with pending := [.hardwareReset] }.pending = .hardwareReset :: [] := by decide
theorem test_witness_IdleInstanceKeepsItsState : (sample .absorbing .noFault 3 3).pending = [] := by decide
theorem test_witness_EveryCommandGetsOneResponse :
    let s : State := { State.reset with pending := [.command 0x4700000000000000] }
    s.pending = .command 0x4700000000000000 :: [] ∧ GoesOn (step s) :=
  ⟨rfl, _, rfl⟩
/-- FILL 59 and 60 with four bytes: one short of the block's end, and at it; and the length limit reached exactly. -/
theorem test_witness_UpdateAbsorbsItsBytes :
    ((sample .absorbing .noFault 59 59).engine.Valid ∧ (sample .absorbing .noFault 59 59).engine.phase = .absorbing ∧
      59 + 4 < 64) ∧
    ((sample .absorbing .noFault 60 60).engine.Valid ∧ 64 ≤ 60 + 4) ∧
    ((sample .absorbing .noFault 61 (Config.maxLen - 2)).engine.Valid ∧ Config.maxLen - 2 + 2 ≤ Config.maxLen) ∧
    (Instr.update [1, 2, 3, 4]).wellFormed = true := by decide +kernel
theorem test_witness_UpdateFrame :
    let s := sample .absorbing .noFault 59 59
    let u := sample .absorbing .noFault 60 60
    let t := stateAfter (exec (.update [1, 2, 3, 4]) s) s
    let v := stateAfter (exec (.update [1, 2, 3, 4]) u) u
    exec (.update [1, 2, 3, 4]) s = .next t ∧ t.engine.phase = .absorbing ∧ 59 + 4 < 64 ∧
    exec (.update [1, 2, 3, 4]) u = .next v ∧ v.engine.phase = .absorbing ∧ 64 ≤ 60 + 4 := by
  refine ⟨rfl, rfl, by decide, rfl, rfl, by decide⟩
theorem test_witness_UpdatePastTheLimitRaisesELenOvf :
    (sample .absorbing .noFault 63 Config.maxLen).engine.phase = .absorbing ∧
    2 ^ 61 - 1 < (sample .absorbing .noFault 63 Config.maxLen).engine.len + [(0x61 : Byte)].length := by decide
theorem test_witness_CommandInTheWrongPhaseRaisesEState :
    (sample .finalized .noFault 0 3).engine.phase = .finalized ∧ (sample .absorbing .noFault 3 3).engine.phase = .absorbing := by
  decide
theorem test_witness_FaultedInstanceRejectsCommands :
    (sample .faulted .eLenOvf 63 63).engine.phase = .faulted ∧ Instr.final ≠ .init ∧ Instr.final ≠ .rdstat ∧
    decode 0 = .illegal .reservedOpcode := by decide
/-- FILL 55, the last with room, and FILL 56, the first without. -/
theorem test_witness_FinalCompressions :
    ((sample .absorbing .noFault 55 55).engine.Valid ∧ (sample .absorbing .noFault 55 55).engine.phase = .absorbing ∧
      (sample .absorbing .noFault 55 55).engine.fill ≤ 55) ∧
    ((sample .absorbing .noFault 56 56).engine.Valid ∧ (sample .absorbing .noFault 56 56).engine.phase = .absorbing ∧
      56 ≤ (sample .absorbing .noFault 56 56).engine.fill) := by decide +kernel
theorem test_witness_FinalFrame :
    (sample .absorbing .noFault 55 55).engine.phase = .absorbing ∧ GoesOn (exec .final (sample .absorbing .noFault 55 55)) ∧
    (sample .absorbing .noFault 55 55).engine.fill ≤ 55 ∧ (0 : Nat) < (sample .absorbing .noFault 55 55).engine.fill :=
  ⟨rfl, ⟨_, rfl⟩, by decide, by decide⟩
theorem test_witness_RddigReadsADigestWord :
    (sample .finalized .noFault 0 3).engine.phase = .finalized ∧ (sample .absorbing .noFault 3 3).engine.phase = .absorbing ∧
    (sample .faulted .eState 3 3).engine.phase = .faulted := by decide
theorem test_witness_InitAndReadsAreIdempotent :
    exec (.rddig 0) (sample .finalized .noFault 0 3) =
      .next { sample .finalized .noFault 0 3 with responses := [] ++ [⟨.ok, 0x6a09e667⟩] } := rfl
theorem test_witness_FaultEntryIsPrecise :
    (sample .absorbing .noFault 3 3).engine.phase ≠ .faulted ∧ (sample .faulted .eState 3 3).engine.phase = .faulted := by
  decide
theorem test_witness_OnlyInitAndResetLeaveFaulted :
    let s : State := { sample .faulted .eState 3 3 with pending := [.command 0x1000000000000000] }
    let t := stateAfter (step s) s
    s.engine.phase = .faulted ∧ step s = .next t ∧ t.engine.phase ≠ .faulted :=
  ⟨rfl, rfl, by decide⟩
theorem test_witness_FaultedEngineIsFrozen :
    let s : State := { sample .faulted .eState 3 3 with pending := [.command 0x3000000000000000] }
    let t := stateAfter (step s) s
    s.engine.phase = .faulted ∧ step s = .next t ∧ t.engine.phase = .faulted :=
  ⟨rfl, rfl, rfl⟩
theorem test_witness_OnlyTheseWriteTheDigestState :
    let s : State := { State.reset with pending := [.command 0x3000000000000000] }
    let t := stateAfter (step s) s
    step s = .next t ∧ t.engine.h ≠ s.engine.h :=
  ⟨rfl, by decide +kernel⟩
theorem test_witness_OnlyTheseWritePhaseAndCause :
    (let s : State := { State.reset with pending := [.command 0] }
     let t := stateAfter (step s) s
     step s = .next t ∧ t.engine.phase = .faulted ∧ t.engine.cause ≠ s.engine.cause) ∧
    (let s : State := { sample .faulted .eState 3 3 with pending := [.command 0x1000000000000000] }
     let t := stateAfter (step s) s
     step s = .next t ∧ t.engine.phase ≠ s.engine.phase ∧ t.engine.cause ≠ s.engine.cause) ∧
    (let s : State := { sample .faulted .eState 3 3 with pending := [.hardwareReset] }
     let t := stateAfter (step s) s
     step s = .next t ∧ t.engine.phase ≠ s.engine.phase ∧ t.engine.cause ≠ s.engine.cause) ∧
    (let s : State := { State.reset with pending := [.command 0x3000000000000000] }
     let t := stateAfter (step s) s
     step s = .next t ∧ t.engine.phase = .finalized ∧ s.engine.phase = .absorbing) :=
  ⟨⟨rfl, rfl, by decide⟩, ⟨rfl, by decide, by decide⟩, ⟨rfl, by decide, by decide⟩, ⟨rfl, rfl, rfl⟩⟩
theorem test_witness_invariants :
    let s : State := { State.reset with pending := [.command 0x2000000061000000] }
    s.engine.Valid ∧ s.engine.Explained ∧ GoesOn (step s) := by
  refine ⟨by decide, ⟨fun _ => ⟨[], by decide, by decide⟩, by simp [State.reset, Engine.reset], by
    simp [State.reset, Engine.reset]⟩, _, rfl⟩
theorem test_witness_UpdateExtendsTheAbsorbedMessage :
    State.reset.engine = absorbedEngine [] ∧ ([] : List Byte).length + [(1 : Byte), 2].length ≤ Config.maxLen := by decide
theorem test_witness_StreamingEquivalence :
    State.reset.engine.Valid ∧ State.reset.engine.phase = .absorbing ∧
    [[(1 : Byte)], [2, 3]].flatten = [[(1 : Byte), 2], [], [3]].flatten ∧
    State.reset.engine.len + [[(1 : Byte)], [2, 3]].flatten.length ≤ Config.maxLen := by decide
theorem test_witness_EachBlockIsCompressedOnce :
    [[(1 : Byte)], [2, 3]].flatten.length ≤ Config.maxLen ∧ (List.replicate 14 [(1 : Byte), 2, 3, 4]).flatten.length % 64 = 56 := by
  decide
theorem test_witness_FullBlockBypassIsEquivalent : State.reset.engine.fill = 0 := by decide
theorem test_witness_DigestStateIsHiddenUntilFinalized :
    let s := sample .absorbing .noFault 3 3
    let u : State := { s with engine := { s.engine with h := Vector.replicate 8 0 } }
    s.engine.phase ≠ .finalized ∧ s.engine.phase = u.engine.phase ∧ s.engine.cause = u.engine.cause ∧
    s.engine.len = u.engine.len ∧ s.responses = u.responses ∧ s.engine.h ≠ u.engine.h ∧
    GoesOn (exec (.rddig 0) s) ∧ GoesOn (exec (.rddig 0) u) :=
  ⟨by decide, rfl, rfl, rfl, rfl, by decide, ⟨_, rfl⟩, ⟨_, rfl⟩⟩
theorem test_witness_LeftoversAreNotObservable :
    (sample .finalized .noFault 0 3).SameToHost (sample .finalized .noFault 9 70) ∧
    GoesOn (step (sample .finalized .noFault 0 3)) :=
  ⟨by decide, _, rfl⟩
theorem test_witness_InstancesAreIndependent :
    let p : Platform 2 := ⟨#v[{ State.reset with pending := [.command 0x2000000061000000] }, State.reset]⟩
    ∃ q, p.runSchedule [0, 1, 0] = .next q := ⟨_, rfl⟩
theorem test_witness_ShiftAndRotateBits : 1 ≤ 1 ∧ 1 ≤ 31 ∧ 31 ≤ 31 ∧ 0 < 32 ∧ 31 < 32 := by decide
theorem test_witness_UnrollingIsNotObservable :
    ([(List.finRange 64).take 4, (List.finRange 64).drop 4] : List (List (Fin 64))).flatten = List.finRange 64 := by decide
theorem test_witness_message_length_limits :
    Config.maxLen ≤ Config.maxLen ∧ ([] : List Byte).length ≤ Config.maxLen := by decide

end Sys2Proof.Tests
end

section
/-!
PROOFS of the family 00_scope.md: one response per command, fault entry, shifts, rotations and byte order, and the digest the host
computes.
-/

namespace Sys2Proof.Machine

/-! ## The arms of `exec`, and the commands phase by phase -/

theorem exec_init (s : State) : exec .init s = execInit s := rfl
theorem exec_update (bytes : List Byte) (s : State) : exec (.update bytes) s = execUpdate bytes s := rfl
theorem exec_final (s : State) : exec .final s = execFinal s := rfl
theorem exec_rddig (idx : Fin 8) (s : State) : exec (.rddig idx) s = execRddig idx s := rfl
theorem exec_rdstat (s : State) : exec .rdstat s = execRdstat s := rfl

theorem execUpdate_of_faulted {s : State} (bytes : List Byte) (hp : s.engine.phase = .faulted) :
    execUpdate bytes s = .next (rejectCommand s) := by
  simp [execUpdate, hp]

theorem execUpdate_of_finalized {s : State} (bytes : List Byte) (hp : s.engine.phase = .finalized) :
    execUpdate bytes s = .next (raiseFault .eState s) := by
  simp [execUpdate, hp]

theorem execUpdate_of_overflow {s : State} {bytes : List Byte} (hp : s.engine.phase = .absorbing)
    (hl : Config.maxLen < s.engine.len + bytes.length) : execUpdate bytes s = .next (raiseFault .eLenOvf s) := by
  simp [execUpdate, hp, wouldOverflow_iff.mpr hl]

theorem execFinal_of_faulted {s : State} (hp : s.engine.phase = .faulted) :
    execFinal s = .next (rejectCommand s) := by
  simp [execFinal, hp]

theorem execFinal_of_finalized {s : State} (hp : s.engine.phase = .finalized) :
    execFinal s = .next (raiseFault .eState s) := by
  simp [execFinal, hp]

theorem raiseFault_of_running {code : Cause} {s : State} (hp : s.engine.phase ≠ .faulted) :
    raiseFault code s = (s.withEngine { s.engine with phase := .faulted, cause := code }).respond faultResponse := by
  rw [raiseFault, Engine.enterFault_of_running code hp]

theorem raiseFault_of_faulted {code : Cause} {s : State} (hp : s.engine.phase = .faulted) :
    raiseFault code s = s.respond faultResponse := by
  rw [raiseFault, Engine.enterFault_of_faulted code hp, State.withEngine_self]

/-- Settles O28: the two cases of fault entry. -/
theorem faultEntryIsPrecise : Obligations.FaultEntryIsPrecise :=
  fun _ _ => ⟨raiseFault_of_running, raiseFault_of_faulted⟩

/-! ## What every command that goes on does to the channel -/

/-- A command that goes on writes some engine and appends one response, and both are the same in every state with that engine: the
words pending and the responses already given do not enter (R70, R122). -/
theorem exec_next_of_engine_eq {i : Instr} {s t : State} (h : exec i s = .next t) :
    ∃ (e : Engine) (r : Response), (r.st = .fault → r.val = 0) ∧
      ∀ u : State, u.engine = s.engine → exec i u = .next ((u.withEngine e).respond r) := by
  have hreject : ∀ u : State, u.engine = s.engine →
      rejectCommand u = (u.withEngine s.engine).respond faultResponse := fun u hu => by rw [← hu]; rfl
  have hraise : ∀ (c : Cause) (u : State), u.engine = s.engine →
      raiseFault c u = (u.withEngine (s.engine.enterFault c)).respond faultResponse :=
    fun c u hu => by rw [← hu]; rfl
  cases i with
  | init => exact ⟨initEngine, okResponse 0, by simp, fun u _ => exec_init u⟩
  | update bytes =>
    obtain ⟨hp, -⟩ | ⟨hp, -⟩ | ⟨hp, hl, -⟩ | ⟨hp, hl, e, he, -⟩ := execUpdate_cases h
    · refine ⟨s.engine, faultResponse, fun _ => rfl, fun u hu => ?_⟩
      rw [exec_update, execUpdate_of_faulted bytes (hu ▸ hp), hreject u hu]
    · refine ⟨s.engine.enterFault .eState, faultResponse, fun _ => rfl, fun u hu => ?_⟩
      rw [exec_update, execUpdate_of_finalized bytes (hu ▸ hp), hraise _ u hu]
    · refine ⟨s.engine.enterFault .eLenOvf, faultResponse, fun _ => rfl, fun u hu => ?_⟩
      rw [exec_update, execUpdate_of_overflow (hu ▸ hp) (hu ▸ hl), hraise _ u hu]
    · exact ⟨e, okResponse 0, by simp, fun u hu => execUpdate_of_absorbing (hu ▸ hp) (hu ▸ hl) (hu ▸ he)⟩
  | final =>
    obtain ⟨hp, -⟩ | ⟨hp, -⟩ | ⟨hp, e, he, -⟩ := execFinal_cases h
    · refine ⟨s.engine, faultResponse, fun _ => rfl, fun u hu => ?_⟩
      rw [exec_final, execFinal_of_faulted (hu ▸ hp), hreject u hu]
    · refine ⟨s.engine.enterFault .eState, faultResponse, fun _ => rfl, fun u hu => ?_⟩
      rw [exec_final, execFinal_of_finalized (hu ▸ hp), hraise _ u hu]
    · exact ⟨{ e with phase := .finalized }, okResponse 0, by simp, fun u hu =>
        execFinal_of_absorbing (hu ▸ hp) (hu ▸ he)⟩
  | rddig idx =>
    cases hp : s.engine.phase with
    | absorbing =>
      refine ⟨s.engine.enterFault .eState, faultResponse, fun _ => rfl, fun u hu => ?_⟩
      rw [exec_rddig, execRddig_of_absorbing idx (hu ▸ hp), hraise _ u hu]
    | finalized =>
      refine ⟨s.engine, okResponse s.engine.h[idx], by simp, fun u hu => ?_⟩
      rw [exec_rddig, execRddig_of_finalized idx (hu ▸ hp), ← hu, State.withEngine_self]
    | faulted =>
      refine ⟨s.engine, faultResponse, fun _ => rfl, fun u hu => ?_⟩
      rw [exec_rddig, execRddig_of_faulted idx (hu ▸ hp), hreject u hu]
  | rdstat =>
    refine ⟨s.engine, okResponse s.engine.statusWord, by simp, fun u hu => ?_⟩
    rw [exec_rdstat, execRdstat, ← hu, State.withEngine_self]

theorem exec_answers_once {i : Instr} {s t : State} (h : exec i s = .next t) :
    ∃ r : Response, t.responses = s.responses ++ [r] ∧ t.pending = s.pending ∧ (r.st = .fault → r.val = 0) := by
  obtain ⟨e, r, hr, hu⟩ := exec_next_of_engine_eq h
  obtain rfl : (s.withEngine e).respond r = t := by simpa [hu s rfl] using h
  exact ⟨r, rfl, rfl, hr⟩

/-- Settles O13, case by case over what a step can do: an ILLEGAL word and a command each answer once. -/
theorem everyCommandGetsOneResponse : Obligations.EveryCommandGetsOneResponse := by
  intro s t c rest hs ht
  obtain ⟨hnil, -⟩ | ⟨rest', hreset, -⟩ | ⟨c', rest', why, hc, -, rfl⟩ | ⟨c', rest', i, hc, -, hi⟩ := step_cases ht
  · simp [hnil] at hs
  · simp [hreset] at hs
  · obtain ⟨-, rfl⟩ : c' = c ∧ rest' = rest := by simpa [hc] using hs
    exact ⟨faultResponse, rfl, rfl, fun _ => rfl⟩
  · obtain ⟨-, rfl⟩ : c' = c ∧ rest' = rest := by simpa [hc] using hs
    exact exec_answers_once hi

/-! ## Shifts and rotations (R12) -/

theorem shr_toNat (x : Word) (n : Nat) : (shr x n).toNat = x.toNat / 2 ^ n := by
  rw [shr, BitVec.toNat_ushiftRight, Nat.shiftRight_eq_div_pow]

theorem rotr_toNat (x : Word) (n : Nat) :
    (rotr x n).toNat = x.toNat / 2 ^ n ||| x.toNat * 2 ^ (32 - n) % 2 ^ 32 := by
  rw [rotr, BitVec.toNat_or, shr_toNat, BitVec.toNat_shiftLeft, Nat.shiftLeft_eq]

theorem shr_getLsbD (x : Word) (n i : Nat) :
    (shr x n).getLsbD i = if i + n ≤ 31 then x.getLsbD (i + n) else false := by
  rw [shr, BitVec.getLsbD_ushiftRight, Nat.add_comm n i]
  split
  · rfl
  · exact BitVec.getLsbD_of_ge x (i + n) (by omega)

theorem rotr_getLsbD (x : Word) {n i : Nat} (hn : n ≤ 31) (hi : i < 32) :
    (rotr x n).getLsbD i = x.getLsbD ((i + n) % 32) := by
  rw [rotr, BitVec.getLsbD_or, shr_getLsbD, BitVec.getLsbD_shiftLeft]
  by_cases hin : i + n ≤ 31
  · rw [if_pos hin, Nat.mod_eq_of_lt (by omega)]
    simp [show i < 32 - n by omega]
  · rw [if_neg hin, show (i + n) % 32 = i - (32 - n) by omega]
    simp [hi, show ¬ i < 32 - n by omega]

/-- Settles O45. -/
theorem shiftAndRotateBits : Obligations.ShiftAndRotateBits := by
  intro x n _ hn
  exact ⟨shr_toNat x n, rotr_toNat x n, fun i hi => ⟨rotr_getLsbD x hn hi, shr_getLsbD x n i⟩⟩

/-! ## Byte order (R13) -/

theorem append_byte_toNat {n : Nat} (x : BitVec n) (b : Byte) : (x ++ b).toNat = x.toNat * 2 ^ 8 + b.toNat := by
  rw [BitVec.toNat_append, ← Nat.shiftLeft_add_eq_or_of_lt b.isLt, Nat.shiftLeft_eq]

theorem be32_toNat (b0 b1 b2 b3 : Byte) :
    (be32 b0 b1 b2 b3).toNat = b0.toNat * 2 ^ 24 + b1.toNat * 2 ^ 16 + b2.toNat * 2 ^ 8 + b3.toNat := by
  rw [be32, append_byte_toNat, append_byte_toNat, append_byte_toNat]
  omega

theorem bytes32_eq (w : Word) :
    bytes32 w = [w.extractLsb 31 24, w.extractLsb 23 16, w.extractLsb 15 8, w.extractLsb 7 0] := rfl

theorem bytes64_get (d : BitVec 64) (k : Fin 8) :
    (bytes64 d)[k] = BitVec.ofNat 8 (d.toNat / 2 ^ (56 - 8 * k.val)) := by
  simp [bytes64, BitVec.extractLsb', Nat.shiftRight_eq_div_pow]

/-- Settles O46. -/
theorem bigEndianConversions : Obligations.BigEndianConversions :=
  ⟨be32_toNat, bytes32_eq, bytes64_get⟩

@[simp] theorem bytes32_be32 (b0 b1 b2 b3 : Byte) : bytes32 (be32 b0 b1 b2 b3) = [b0, b1, b2, b3] := by
  have hlane : ∀ (k : Nat) (b : Byte), (be32 b0 b1 b2 b3).toNat / 2 ^ k % 2 ^ 8 = b.toNat →
      (be32 b0 b1 b2 b3).extractLsb' k 8 = b := fun k b h =>
    BitVec.eq_of_toNat_eq (by rw [BitVec.extractLsb'_toNat, Nat.shiftRight_eq_div_pow, h])
  rw [be32_toNat] at hlane
  rw [bytes32, hlane 24 b0 (by omega), hlane 16 b1 (by omega), hlane 8 b2 (by omega), hlane 0 b3 (by omega)]

end Sys2Proof.Machine
end

section
/-!
PROOFS: decoding the word of a well-formed command (R89, R91, R93).
-/

namespace Sys2Proof

/-- The lanes of packed DATA are the bytes of the UPDATE, and zero where there is none: `packLanes` and `dataLanes` are the
big-endian conversions of R13. -/
@[simp] theorem dataLanes_packLanes (bytes : List Byte) :
    dataLanes (packLanes bytes) = [bytes.getD 0 0, bytes.getD 1 0, bytes.getD 2 0, bytes.getD 3 0] :=
  Machine.bytes32_be32 ..

theorem take_dataLanes_packLanes {bytes : List Byte} (h : 1 ≤ bytes.length ∧ bytes.length ≤ 4) :
    (dataLanes (packLanes bytes)).take (byteCountField (BitVec.ofNat 4 (bytes.length - 1))) = bytes := by
  rw [dataLanes_packLanes]
  match bytes, h with
  | [_], _ | [_, _], _ | [_, _, _], _ | [_, _, _, _], _ => rfl

/-- The count field of an UPDATE leaves `ARG[3:2]` zero (R86). -/
theorem updateArg_high_eq_zero {n : Nat} (h : n ≤ 4) : (BitVec.ofNat 4 (n - 1)).extractLsb' 2 2 = 0 := by
  interval_cases n <;> rfl

/-- The index field of RDDIG leaves `ARG[3]` zero and gives the index back (R87). -/
theorem rddigArg_fields : ∀ idx : Fin 8,
    (BitVec.ofNat 4 idx).extractLsb' 3 1 = 0 ∧ ((BitVec.ofNat 4 idx).extractLsb' 0 3).toFin = idx := by
  decide

theorem decode_encode {i : Instr} (h : i.wellFormed = true) : decode (encode i) = .command i := by
  rw [decode_eq_command_iff]
  cases i with
  | init => simp [encode]
  | update bytes =>
    have hlen := wellFormed_update_iff.mp h
    simp [encode, take_dataLanes_packLanes hlen, updateArg_high_eq_zero hlen.2, -dataLanes_packLanes]
  | final => simp [encode]
  | rddig idx =>
    obtain ⟨hhigh, hidx⟩ := rddigArg_fields idx
    simp only [encode, opField_commandWord, argField_commandWord, resField_commandWord, dataField_commandWord,
      hhigh, hidx]
    simp
  | rdstat => simp [encode]

end Sys2Proof
end

section
/-!
PROOFS: the host's program for a message. The run of the words of a command list is the run of the commands themselves, and the
commands INIT, ABSORB and DIGEST take the engine through `absorbedEngine` to the digest.
-/

namespace Sys2Proof.Machine

/-! ## Running a list of commands -/

theorem execAll_cons {i : Instr} {is : List Instr} {s t : State} (h : exec i s = .next t) :
    execAll (i :: is) s = execAll is t := by
  rw [execAll, h]

/-- Commands that all went on began with one that went on. -/
theorem execAll_cons_eq_next {i : Instr} {is : List Instr} {s t : State} (h : execAll (i :: is) s = .next t) :
    ∃ u, exec i s = .next u ∧ execAll is u = .next t := by
  cases hi : exec i s with
  | next u => exact ⟨u, rfl, by rwa [execAll_cons hi] at h⟩
  | fault f => simp [execAll, hi] at h
  | refused r => simp [execAll, hi] at h

theorem execAll_append {xs ys : List Instr} {s t : State} (h : execAll xs s = .next t) :
    execAll (xs ++ ys) s = execAll ys t := by
  induction xs generalizing s with
  | nil => cases h; rfl
  | cons i is ih =>
    obtain ⟨u, hu, ht⟩ := execAll_cons_eq_next h
    rw [List.cons_append, execAll_cons hu, ih ht]

theorem exec_withCommands {i : Instr} {s t : State} (h : exec i s = .next t) (is : List Instr) :
    exec i (s.withCommands is) = .next (t.withCommands is) := by
  obtain ⟨e, r, -, hu⟩ := exec_next_of_engine_eq h
  obtain rfl : (s.withEngine e).respond r = t := by simpa [hu s rfl] using h
  exact hu (s.withCommands is) rfl

theorem step_withCommands_cons {i : Instr} (hi : i.wellFormed = true) (is : List Instr) (s : State) :
    step (s.withCommands (i :: is)) = exec i (s.withCommands is) := by
  change issueCommand (encode i) (s.withCommands is) = _
  rw [issueCommand, decode_encode hi]

theorem run_succ_of_step {s t : State} (h : step s = .next t) (n : Nat) : core.run (n + 1) s = core.run n t := by
  have hcore : core.step s = .next t := h
  simp only [Host.Core.run, hcore]

theorem run_withCommands {is : List Instr} (hwf : ∀ i ∈ is, i.wellFormed = true) {s t : State}
    (h : execAll is s = .next t) : core.run is.length (s.withCommands is) = .next t := by
  induction is generalizing s with
  | nil => exact h
  | cons i is ih =>
    obtain ⟨hi, his⟩ := List.forall_mem_cons.mp hwf
    obtain ⟨u, hu, ht⟩ := execAll_cons_eq_next h
    rw [List.length_cons, run_succ_of_step ((step_withCommands_cons hi is s).trans (exec_withCommands hu is))]
    exact ih his ht

/-! ## The pieces of ABSORB (R92) -/

@[simp] theorem updateChunks_flatten (m : List Byte) : (updateChunks m).flatten = m := by
  induction m using updateChunks.induct with
  | case5 b0 b1 b2 b3 rest ih => rw [updateChunks, List.flatten_cons, ih]; rfl
  | _ => rfl

@[simp] theorem updateChunks_length (m : List Byte) : (updateChunks m).length = (m.length + 3) / 4 := by
  induction m using updateChunks.induct with
  | case5 b0 b1 b2 b3 rest ih =>
    rw [updateChunks, List.length_cons, ih]
    simp only [List.length_cons]
    omega
  | _ => simp [updateChunks]

theorem updateChunks_wellFormed (m : List Byte) :
    ∀ bytes ∈ updateChunks m, (Instr.update bytes).wellFormed = true := by
  induction m using updateChunks.induct with
  | case1 => simp [updateChunks]
  | case5 b0 b1 b2 b3 rest ih => exact List.forall_mem_cons.mpr ⟨rfl, ih⟩
  | _ => exact List.forall_mem_singleton.mpr rfl

/-! ## The commands on an engine that has absorbed a message -/

theorem initEngine_eq_absorbedEngine : initEngine = absorbedEngine [] :=
  (Engine.Holds.of_unwritten rfl rfl).eq_absorbedEngine rfl rfl rfl rfl

/-- More bytes compress the blocks that the unprocessed bytes and they complete (R21). -/
theorem chainingValue_append (m r : List Byte) :
    chainingValue (m ++ r) = (completeBlocks (remainder m ++ r)).foldl compress (chainingValue m) := by
  rw [chainingValue, (completeBlocks_append m r).1, List.foldl_append, chainingValue]

theorem absorbBytes_absorbedEngine (m bytes : List Byte) :
    absorbBytes bytes (absorbedEngine m) = .ok (absorbedEngine (m ++ bytes)) := by
  obtain ⟨e, he, hholds, hH⟩ := absorbBytes_of_holds bytes (absorbedEngine_holds m)
  obtain ⟨hlen, hphase, hcause⟩ := absorbBytes_frame he
  rw [← (completeBlocks_append m bytes).2] at hholds
  rw [he, hholds.eq_absorbedEngine (hH.trans (chainingValue_append m bytes).symm)
    (hlen.trans List.length_append.symm) hphase hcause]

theorem exec_update_absorbedEngine {s : State} {m bytes : List Byte} (he : s.engine = absorbedEngine m)
    (hl : m.length + bytes.length ≤ Config.maxLen) :
    exec (.update bytes) s = .next ((s.withEngine (absorbedEngine (m ++ bytes))).respond (okResponse 0)) :=
  execUpdate_of_absorbing (he ▸ rfl) (he ▸ hl) (he ▸ absorbBytes_absorbedEngine m bytes)

theorem exec_final_absorbedEngine {s : State} {m : List Byte} (he : s.engine = absorbedEngine m)
    (hl : m.length ≤ Config.maxLen) :
    ∃ buf : BlockBuffer,
      exec .final s = .next ((s.withEngine { h := messageDigest m, buf := buf, fill := 0, len := m.length,
                                             phase := .finalized, cause := .noFault }).respond (okResponse 0)) := by
  obtain ⟨e, hfin, hH⟩ := finalize_of_holds (absorbedEngine_holds m) (remainder_length m).symm (bitLength_lt hl)
  obtain ⟨hlen, -, hcause, hfill⟩ := finalize_frame hfin
  have hdigest : e.h = messageDigest m := hH.trans (chainingValue_append m (pad m.length)).symm
  refine ⟨e.buf, ?_⟩
  rw [exec_final, execFinal_of_absorbing (he ▸ rfl) (he ▸ hfin), hdigest, hlen, hcause, hfill]
  rfl

/-! ## The host's program (R120) -/

theorem execAll_updates {s : State} {m : List Byte} (pieces : List (List Byte)) (he : s.engine = absorbedEngine m)
    (hl : m.length + pieces.flatten.length ≤ Config.maxLen) :
    execAll (pieces.map .update) s =
      .next { engine := absorbedEngine (m ++ pieces.flatten), pending := s.pending,
              responses := s.responses ++ List.replicate pieces.length (okResponse 0) } := by
  induction pieces generalizing s m with
  | nil => simp [execAll, ← he]
  | cons bytes pieces ih =>
    rw [List.flatten_cons, List.length_append] at hl
    rw [List.map_cons, execAll_cons (exec_update_absorbedEngine he (by omega)),
      ih rfl (by rw [List.length_append]; omega)]
    simp [List.replicate_succ]

theorem execAll_rddig {s : State} (idxs : List (Fin 8)) (hp : s.engine.phase = .finalized) :
    execAll (idxs.map .rddig) s =
      .next { s with responses := s.responses ++ idxs.map fun idx => okResponse s.engine.h[idx] } := by
  induction idxs generalizing s with
  | nil => simp [execAll]
  | cons idx idxs ih =>
    rw [List.map_cons, execAll_cons ((exec_rddig idx s).trans (execRddig_of_finalized idx hp)),
      ih (s := s.respond (okResponse s.engine.h[idx])) hp]
    simp

theorem map_finRange_get {α : Type} (f : Word → α) (H : DigestState) :
    (List.finRange 8).map (fun idx => f H[idx]) = H.toList.map f := by
  apply List.ext_getElem <;> simp

theorem execAll_new_absorb (s : State) {m : List Byte} (hm : m.length ≤ Config.maxLen) :
    execAll (AsmLine.new.expand ++ (AsmLine.absorb m).expand) s =
      .next { engine := absorbedEngine m, pending := s.pending,
              responses := s.responses ++ List.replicate ((m.length + 3) / 4 + 1) (okResponse 0) } := by
  have hinit : exec .init s = .next ((s.withEngine (absorbedEngine [])).respond (okResponse 0)) := by
    rw [exec_init, execInit, initEngine_eq_absorbedEngine]
  have hupdates := execAll_updates (s := (s.withEngine (absorbedEngine [])).respond (okResponse 0)) (m := [])
    (updateChunks m) rfl (by simpa using hm)
  rw [updateChunks_flatten, updateChunks_length] at hupdates
  refine (execAll_cons hinit).trans (hupdates.trans ?_)
  simp [List.replicate_succ]

theorem execAll_digest {s : State} {m : List Byte} (he : s.engine = absorbedEngine m)
    (hm : m.length ≤ Config.maxLen) :
    ∃ e : Engine, execAll AsmLine.digest.expand s =
      .next { engine := e, pending := s.pending,
              responses := s.responses ++ [okResponse 0] ++ (messageDigest m).toList.map okResponse } := by
  obtain ⟨buf, hfinal⟩ := exec_final_absorbedEngine he hm
  refine ⟨⟨messageDigest m, buf, 0, m.length, .finalized, .noFault⟩, ?_⟩
  rw [AsmLine.expand, execAll_cons hfinal, execAll_rddig _ rfl, map_finRange_get]
  rfl

/-- The commands of INIT, ABSORB `m` and DIGEST (R120, R92). -/
def hostProgram (m : List Byte) : List Instr :=
  AsmLine.new.expand ++ (AsmLine.absorb m).expand ++ AsmLine.digest.expand

theorem hostProgram_wellFormed (m : List Byte) : ∀ i ∈ hostProgram m, i.wellFormed = true := by
  intro i hi
  simp only [hostProgram, AsmLine.expand, List.mem_append, List.mem_cons, List.mem_map, List.not_mem_nil,
    or_false] at hi
  obtain (rfl | ⟨bytes, hb, rfl⟩) | rfl | ⟨idx, -, rfl⟩ := hi
  · rfl
  · exact updateChunks_wellFormed m bytes hb
  · rfl
  · rfl

theorem execAll_hostProgram (s : State) {m : List Byte} (hm : m.length ≤ Config.maxLen) :
    ∃ e : Engine, execAll (hostProgram m) s =
      .next { engine := e, pending := s.pending,
              responses := s.responses ++ List.replicate ((m.length + 3) / 4 + 2) (okResponse 0) ++
                (messageDigest m).toList.map okResponse } := by
  obtain ⟨e, hdigest⟩ := execAll_digest (s := ⟨absorbedEngine m, s.pending, s.responses ++
    List.replicate ((m.length + 3) / 4 + 1) (okResponse 0)⟩) rfl hm
  refine ⟨e, ?_⟩
  rw [hostProgram, execAll_append (execAll_new_absorb s hm), hdigest, List.append_assoc s.responses,
    ← List.replicate_succ']

/-- Settles O41: the words run as the commands do, and the eight words read are the digest state of the message. -/
theorem hostComputesTheDigestOfAnyMessage : Obligations.HostComputesTheDigestOfAnyMessage := by
  intro s m hm
  obtain ⟨e, h⟩ := execAll_hostProgram s hm
  exact ⟨_, (messageDigest m).toList, run_withCommands (hostProgram_wellFormed m) h, rfl, Vector.length_toList,
    rfl, rfl⟩

end Sys2Proof.Machine
end

section
/-!
PROOFS of the family 10_state.md: what a step can do to the engine, the invariants every step keeps, what the host cannot see, and the
independence of the instances.
-/

namespace Sys2Proof

/-! ## Words of INIT and UPDATE -/

theorem eq_initWord_of_decode {c : CommandWord} (h : decode c = .command .init) : c = 0x1000000000000000 := by
  obtain ⟨hres, ⟨hop, harg, hdata, -⟩ | ⟨-, -, hi⟩ | ⟨-, -, -, hi⟩ | ⟨-, -, -, hi⟩ | ⟨-, -, -, hi⟩⟩ :=
    decode_eq_command_iff.mp h
  · rw [word_eq_commandWord hres, hop, harg, hdata]
    rfl
  all_goals cases hi

theorem length_le_of_decode_update {c : CommandWord} {bytes : List Byte} (h : decode c = .command (.update bytes)) :
    bytes.length ≤ 4 := by
  obtain ⟨-, ⟨-, -, -, hi⟩ | ⟨-, -, hi⟩ | ⟨-, -, -, hi⟩ | ⟨-, -, -, hi⟩ | ⟨-, -, -, hi⟩⟩ :=
    decode_eq_command_iff.mp h
  case inr.inl =>
    cases hi
    exact List.length_take_le' _ _
  all_goals cases hi

end Sys2Proof

namespace Sys2Proof.Machine

/-! ## The step, by the host's next action -/

theorem step_of_idle {s : State} (h : s.pending = []) : step s = .next s := by
  rw [step, h]

theorem step_of_reset {s : State} {rest : List HostAction} (h : s.pending = .hardwareReset :: rest) :
    step s = .next (hardwareReset { s with pending := rest }) := by
  rw [step, h]

theorem step_of_illegal {s : State} {c : CommandWord} {rest : List HostAction} {why : IllegalReason}
    (h : s.pending = .command c :: rest) (hc : decode c = .illegal why) :
    step s = .next (raiseFault .eIllegal { s with pending := rest }) := by
  simp only [step, h, issueCommand, hc]
  rfl

theorem step_of_command {s : State} {c : CommandWord} {rest : List HostAction} {i : Instr}
    (h : s.pending = .command c :: rest) (hc : decode c = .command i) :
    step s = exec i { s with pending := rest } := by
  simp only [step, h, issueCommand, hc]

/-! ## What a command that went on has done -/

/-- UPDATE within the limit that goes on has absorbed its bytes. -/
theorem execUpdate_next_of_absorbing {bytes : List Byte} {s t : State} (h : execUpdate bytes s = .next t)
    (hp : s.engine.phase = .absorbing) (hl : s.engine.len + bytes.length ≤ Config.maxLen) :
    ∃ e, absorbBytes bytes s.engine = .ok e ∧ t = (s.withEngine e).respond (okResponse 0) := by
  obtain ⟨hp', -⟩ | ⟨hp', -⟩ | ⟨-, hl', -⟩ | ⟨-, -, he⟩ := execUpdate_cases h
  · cases hp.symm.trans hp'
  · cases hp.symm.trans hp'
  · omega
  · exact he

/-- FINAL in ABSORBING that goes on has run Finalize. -/
theorem execFinal_next_of_absorbing {s t : State} (h : execFinal s = .next t) (hp : s.engine.phase = .absorbing) :
    ∃ e, finalize s.engine = .ok e ∧ t = (s.withEngine { e with phase := .finalized }).respond (okResponse 0) := by
  obtain ⟨hp', -⟩ | ⟨hp', -⟩ | ⟨-, he⟩ := execFinal_cases h
  · cases hp.symm.trans hp'
  · cases hp.symm.trans hp'
  · exact he

/-- Everything RDDIG can answer. -/
theorem execRddig_cases {idx : Fin 8} {s t : State} (h : execRddig idx s = .next t) :
    (s.engine.phase = .faulted ∧ t = rejectCommand s) ∨
    (s.engine.phase = .absorbing ∧ t = raiseFault .eState s) ∨
    (s.engine.phase = .finalized ∧ t = s.respond (okResponse s.engine.h[idx])) := by
  cases hp : s.engine.phase with
  | absorbing => simpa [execRddig_of_absorbing idx hp] using h.symm
  | finalized => simpa [execRddig_of_finalized idx hp] using h.symm
  | faulted => simpa [execRddig_of_faulted idx hp] using h.symm

/-! ## What a step can do to the engine -/

/-- The ways from a state `s` to the next state `t`, by what happens to the engine. `step_engineStep` ties it to `step`. -/
inductive EngineStep (s t : State) : Prop where
  /-- Idle, a read, or a command rejected in FAULTED (R246, R117, R118, R234). -/
  | kept (h : t.engine = s.engine)
  /-- Hardware reset (R270). -/
  | hardwareReset (rest : List HostAction) (hs : s.pending = .hardwareReset :: rest) (h : t.engine = Engine.reset)
  /-- INIT (R111). -/
  | init (c : CommandWord) (rest : List HostAction) (hs : s.pending = .command c :: rest)
      (hc : decode c = .command .init) (h : t.engine = Engine.reset)
  /-- A fault taken outside FAULTED (R231). -/
  | fault (c : CommandWord) (rest : List HostAction) (code : Cause) (hs : s.pending = .command c :: rest)
      (hcode : code ≠ .noFault) (hp : s.engine.phase ≠ .faulted) (h : t.engine = s.engine.enterFault code)
      (hr : t.responses = s.responses ++ [faultResponse])
  /-- UPDATE within the limit (R112). -/
  | update (c : CommandWord) (rest : List HostAction) (bytes : List Byte) (hs : s.pending = .command c :: rest)
      (hc : decode c = .command (.update bytes)) (hp : s.engine.phase = .absorbing)
      (hl : s.engine.len + bytes.length ≤ Config.maxLen) (h : absorbBytes bytes s.engine = .ok t.engine)
  /-- FINAL in ABSORBING (R116). -/
  | final (c : CommandWord) (rest : List HostAction) (e : Engine) (hs : s.pending = .command c :: rest)
      (hc : decode c = .command .final) (hp : s.engine.phase = .absorbing) (he : finalize s.engine = .ok e)
      (h : t.engine = { e with phase := .finalized })

theorem step_engineStep {s t : State} (h : step s = .next t) : EngineStep s t := by
  obtain ⟨-, rfl⟩ | ⟨rest, hs, rfl⟩ | ⟨c, rest, why, hs, -, rfl⟩ | ⟨c, rest, i, hs, hc, hi⟩ := step_cases h
  · exact .kept rfl
  · exact .hardwareReset rest hs rfl
  · by_cases hp : s.engine.phase = .faulted
    · exact .kept (Engine.enterFault_of_faulted _ hp)
    · exact .fault c rest .eIllegal hs (by decide) hp rfl rfl
  cases i with
  | init =>
    cases hi
    exact .init c rest hs hc rfl
  | update bytes =>
    obtain ⟨-, rfl⟩ | ⟨hp, rfl⟩ | ⟨hp, -, rfl⟩ | ⟨hp, hl, e, he, rfl⟩ := execUpdate_cases hi
    · exact .kept rfl
    · exact .fault c rest .eState hs (by decide) (hp.trans_ne nofun) rfl rfl
    · exact .fault c rest .eLenOvf hs (by decide) (hp.trans_ne nofun) rfl rfl
    · exact .update c rest bytes hs hc hp hl he
  | final =>
    obtain ⟨-, rfl⟩ | ⟨hp, rfl⟩ | ⟨hp, e, he, rfl⟩ := execFinal_cases hi
    · exact .kept rfl
    · exact .fault c rest .eState hs (by decide) (hp.trans_ne nofun) rfl rfl
    · exact .final c rest e hs hc hp he rfl
  | rddig idx =>
    obtain ⟨-, rfl⟩ | ⟨hp, rfl⟩ | ⟨-, rfl⟩ := execRddig_cases hi
    · exact .kept rfl
    · exact .fault c rest .eState hs (by decide) (hp.trans_ne nofun) rfl rfl
    · exact .kept rfl
  | rdstat =>
    cases hi
    exact .kept rfl

/-! ## The invariants -/

theorem reset_valid : Engine.reset.Valid := initEngine_valid

/-- Settles O34: each way a step can change the engine keeps it valid. -/
theorem stepKeepsTheEngineValid : Obligations.StepKeepsTheEngineValid := by
  intro s t hv ht
  cases step_engineStep ht with
  | kept h => rwa [h]
  | hardwareReset rest hs h => rw [h]; exact reset_valid
  | init c rest hs hc h => rw [h]; exact reset_valid
  | fault c rest code hs hcode hp h hr => rw [h]; exact enterFault_keeps_valid hcode hv
  | update c rest bytes hs hc hp hl h => exact (absorbBytes_keeps_valid hv hp hl h).1
  | final c rest e hs hc hp he h => rw [h]; exact finalize_keeps_valid hv hp he

theorem absorbedEngine_explained {m : List Byte} (hm : m.length ≤ Config.maxLen) : (absorbedEngine m).Explained :=
  ⟨fun _ => ⟨m, hm, rfl⟩, nofun, nofun⟩

theorem reset_explained : Engine.reset.Explained := by
  rw [← initEngine_eq_reset, initEngine_eq_absorbedEngine]
  exact absorbedEngine_explained (Nat.zero_le _)

theorem finalize_explained {m : List Byte} {e : Engine} (hm : m.length ≤ Config.maxLen)
    (h : finalize (absorbedEngine m) = .ok e) : { e with phase := .finalized }.Explained := by
  obtain ⟨e', he', hH⟩ := finalize_of_holds (absorbedEngine_holds m) (remainder_length m).symm (bitLength_lt hm)
  obtain rfl : e = e' := Except.ok.inj (h.symm.trans he')
  obtain ⟨hlen, -, hcause, hfill⟩ := finalize_frame h
  have hdigest : e.h = messageDigest m := hH.trans (chainingValue_append m (pad m.length)).symm
  exact ⟨nofun, fun _ => ⟨m, hm, hdigest, hlen, hfill, hcause⟩, nofun⟩

theorem enterFault_explained {e : Engine} {code : Cause} (hcode : code ≠ .noFault) (hp : e.phase ≠ .faulted) :
    (e.enterFault code).Explained := by
  rw [Engine.enterFault_of_running code hp]
  exact ⟨nofun, nofun, fun _ => hcode⟩

/-- Settles O36: each way a step can change the engine keeps it explained; UPDATE lengthens the absorbed message, and FINAL leaves its
digest state. -/
theorem stepKeepsTheEngineExplained : Obligations.StepKeepsTheEngineExplained := by
  intro s t hs ht
  cases step_engineStep ht with
  | kept h => rwa [h]
  | hardwareReset rest hs h => rw [h]; exact reset_explained
  | init c rest hs hc h => rw [h]; exact reset_explained
  | fault c rest code hs hcode hp h hr => rw [h]; exact enterFault_explained hcode hp
  | update c rest bytes hs' hc hp hl h =>
    obtain ⟨m, -, hm⟩ := hs.1 hp
    rw [hm, absorbBytes_absorbedEngine] at h
    rw [← Except.ok.inj h]
    exact absorbedEngine_explained (List.length_append.trans_le (by rwa [hm] at hl))
  | final c rest e hs' hc hp he h =>
    obtain ⟨m, hlen, hm⟩ := hs.1 hp
    rw [h]
    exact finalize_explained hlen (hm ▸ he)

/-- Settles O37, by absorption into the engine that has absorbed `m`. -/
theorem updateExtendsTheAbsorbedMessage : Obligations.UpdateExtendsTheAbsorbedMessage :=
  ⟨initEngine_eq_absorbedEngine.symm, fun _ _ _ he hl => exec_update_absorbedEngine he hl⟩

/-- Settles O33: the reset engine is INIT's, which has absorbed the empty message. -/
theorem resetStateIsValid : Obligations.ResetStateIsValid := ⟨reset_valid, reset_explained⟩

/-- Settles O30: of the ways a step can change the engine, those that start in FAULTED and keep it there change nothing. -/
theorem faultedEngineIsFrozen : Obligations.FaultedEngineIsFrozen := by
  intro s t hs ht hfaulted
  cases step_engineStep ht with
  | kept h => exact h
  | hardwareReset rest hs' h => simp [h] at hfaulted
  | init c rest hs' hc h => simp [h] at hfaulted
  | fault c rest code hs' hcode hp h hr => exact absurd hs hp
  | update c rest bytes hs' hc hp hl h => simp [hp] at hs
  | final c rest e hs' hc hp he h => simp [hp] at hs

/-! ## The writers of H, PHASE and CAUSE -/

/-- Four bytes at most change `H` only by filling the block, and then by one compression (R22, R113). -/
theorem absorbBytes_writes_h {bytes : List Byte} {e e' : Engine} (h : absorbBytes bytes e = .ok e')
    (hle : bytes.length ≤ 4) (hne : e'.h ≠ e.h) :
    64 ≤ e.fill + bytes.length ∧ ∃ block, e'.h = compress e.h block := by
  have hfull : 64 ≤ e.fill + bytes.length := by
    by_contra hlt
    exact hne (absorbBytes_of_no_boundary h (by omega)).1
  have hFill : e.fill < 64 := by
    cases bytes with
    | nil => cases h; exact absurd rfl hne
    | cons b bs =>
      rw [absorbBytes_cons] at h
      cases hb : absorbByte b e with
      | ok e1 =>
        obtain ⟨-, -, -, hFill, -⟩ := absorbByte_frame hb
        exact hFill
      | error f => rw [hb] at h; cases h
  obtain ⟨-, hH, -⟩ := absorbBytes_of_boundary h hFill hfull hle
  exact ⟨hfull, hH⟩

theorem finalize_writes_h {e e' : Engine} (h : finalize e = .ok e') :
    (e.fill ≤ 55 ∧ ∃ block, e'.h = compress e.h block) ∨
    (56 ≤ e.fill ∧ ∃ first second, e'.h = compress (compress e.h first) second) := by
  obtain ⟨-, -, ⟨hle, block, -, rfl⟩ | ⟨hge, first, second, -, -, rfl⟩⟩ := finalize_eq_ok_iff.mp h
  · exact .inl ⟨hle, block, rfl⟩
  · exact .inr ⟨hge, first, second, rfl⟩

/-- Settles O31: the other ways a step can change the engine leave `H` alone. -/
theorem onlyTheseWriteTheDigestState : Obligations.OnlyTheseWriteTheDigestState := by
  intro s t ht hne
  cases step_engineStep ht with
  | kept h => simp [h] at hne
  | hardwareReset rest hs h => exact .inl ⟨⟨rest, hs⟩, by simp [h]⟩
  | init c rest hs hc h => exact .inr ⟨c, rest, .init, hs, hc, .inl ⟨rfl, by simp [h]⟩⟩
  | fault c rest code hs hcode hp h hr => simp [h] at hne
  | update c rest bytes hs hc hp hl h =>
    obtain ⟨hfull, hH⟩ := absorbBytes_writes_h h (length_le_of_decode_update hc) hne
    exact .inr ⟨c, rest, .update bytes, hs, hc, .inr (.inl ⟨hp, ⟨bytes, rfl, hfull⟩, hH⟩)⟩
  | final c rest e hs hc hp he h =>
    have hH : t.engine.h = e.h := by rw [h]
    rw [hH]
    exact .inr ⟨c, rest, .final, hs, hc, .inr (.inr ⟨hp, rfl, finalize_writes_h he⟩)⟩

/-- Settles O32: UPDATE writes neither PHASE nor CAUSE, and FINAL does not write CAUSE. -/
theorem onlyTheseWritePhaseAndCause : Obligations.OnlyTheseWritePhaseAndCause := by
  intro s t ht
  cases step_engineStep ht with
  | kept h => simp [h]
  | hardwareReset rest hs h => exact ⟨fun _ => .inl ⟨⟨rest, .inl hs⟩, h⟩, fun _ => .inl ⟨⟨rest, .inl hs⟩, h⟩⟩
  | init c rest hs hc h =>
    obtain rfl := eq_initWord_of_decode hc
    exact ⟨fun _ => .inl ⟨⟨rest, .inr hs⟩, h⟩, fun _ => .inl ⟨⟨rest, .inr hs⟩, h⟩⟩
  | fault c rest code hs hcode hp h hr =>
    rw [Engine.enterFault_of_running code hp] at h
    have hfault : t.engine = { s.engine with phase := .faulted, cause := t.engine.cause } := by rw [h]
    exact ⟨fun _ => .inr (.inr ⟨⟨c, rest, hs⟩, hp, hfault, hr⟩), fun _ => .inr ⟨⟨c, rest, hs⟩, hp, hfault, hr⟩⟩
  | update c rest bytes hs hc hp hl h =>
    obtain ⟨-, hphase, hcause⟩ := absorbBytes_frame h
    exact ⟨fun hne => absurd hphase hne, fun hne => absurd hcause hne⟩
  | final c rest e hs hc hp he h =>
    obtain ⟨-, -, hcause, -⟩ := finalize_frame he
    rw [h]
    exact ⟨fun _ => .inr (.inl ⟨hp, rfl, c, rest, hs, hc⟩), fun hne => absurd hcause hne⟩

/-! ## Independence of the instances (R42) -/

theorem stepInstance_cases {n : Nat} {k : Fin n} {p q : Platform n} (h : p.stepInstance k = .next q) :
    ∃ s, step p.instances[k] = .next s ∧ q = ⟨p.instances.set k s⟩ := by
  unfold Platform.stepInstance at h
  split at h
  · exact ⟨_, ‹_›, by simpa using h.symm⟩
  all_goals cases h

theorem runSchedule_cons_cases {n : Nat} {k : Fin n} {ks : List (Fin n)} {p q : Platform n}
    (h : p.runSchedule (k :: ks) = .next q) : ∃ p', p.stepInstance k = .next p' ∧ p'.runSchedule ks = .next q := by
  unfold Platform.runSchedule at h
  split at h
  · exact ⟨_, ‹_›, h⟩
  all_goals cases h

/-- Settles O44, by induction over the schedule: the step of one of them is its own step and leaves the
others' states. -/
theorem instancesAreIndependent : Obligations.InstancesAreIndependent := by
  intro n ks
  induction ks with
  | nil =>
    intro p q h k
    cases h
    rfl
  | cons j ks ih =>
    intro p q h k
    obtain ⟨p', hstep, hrun⟩ := runSchedule_cons_cases h
    obtain ⟨s, hs, rfl⟩ := stepInstance_cases hstep
    have hrest := ih _ q hrun k
    by_cases hjk : j = k
    · subst hjk
      rw [List.count_cons_self, run_succ_of_step hs]
      simpa using hrest
    · have hother : (p.instances.set j s)[k] = p.instances[k] := by
        simp [Fin.val_ne_of_ne hjk]
      rw [List.count_cons_of_ne hjk, ← hother]
      exact hrest

/-! ## What the host cannot see (R23, R40, R205) -/

theorem statusWord_congr {e e' : Engine} (hp : e.phase = e'.phase) (hc : e.cause = e'.cause) :
    e.statusWord = e'.statusWord := by
  unfold Engine.statusWord
  rw [hp, hc]

theorem enterFault_cause_congr {e e' : Engine} (code : Cause) (hp : e.phase = e'.phase) (hc : e.cause = e'.cause) :
    (e.enterFault code).cause = (e'.enterFault code).cause := by
  unfold Engine.enterFault
  rw [← hp]
  split
  · rfl
  · exact hc

/-- The two states agree on the responses, PHASE, CAUSE and LEN; `H`, `BUF` and `FILL` may differ. -/
structure State.AgreesButDigest (s u : State) : Prop where
  responses : s.responses = u.responses
  phase : s.engine.phase = u.engine.phase
  cause : s.engine.cause = u.engine.cause
  len : s.engine.len = u.engine.len

theorem State.AgreesButDigest.respond {s u : State} (h : s.AgreesButDigest u) (r : Response) :
    (s.respond r).AgreesButDigest (u.respond r) :=
  ⟨congrArg (· ++ [r]) h.responses, h.phase, h.cause, h.len⟩

theorem State.AgreesButDigest.raiseFault {s u : State} (h : s.AgreesButDigest u) (code : Cause) :
    (raiseFault code s).AgreesButDigest (raiseFault code u) :=
  ⟨by simp [h.responses], by simp, enterFault_cause_congr code h.phase h.cause, by simp [h.len]⟩

/-- Outside FINALIZED a command that goes on from two such states takes both to such states. -/
theorem State.AgreesButDigest.exec {s u t v : State} {i : Instr} (h : s.AgreesButDigest u)
    (hp : s.engine.phase ≠ .finalized) (ht : exec i s = .next t) (hv : exec i u = .next v) : t.AgreesButDigest v := by
  cases i with
  | init =>
    cases ht
    cases hv
    exact ⟨by simp [h.responses], rfl, rfl, rfl⟩
  | update bytes =>
    obtain ⟨hs, rfl⟩ | ⟨hs, -⟩ | ⟨hs, hl, rfl⟩ | ⟨hs, hl, e, he, rfl⟩ := execUpdate_cases ht
    · rw [exec_update, execUpdate_of_faulted bytes (h.phase ▸ hs)] at hv
      cases hv
      exact h.respond _
    · exact absurd hs hp
    · rw [exec_update, execUpdate_of_overflow (h.phase ▸ hs) (h.len ▸ hl)] at hv
      cases hv
      exact h.raiseFault _
    · obtain ⟨e', he', rfl⟩ := execUpdate_next_of_absorbing hv (h.phase ▸ hs) (h.len ▸ hl)
      obtain ⟨hlen, hphase, hcause⟩ := absorbBytes_frame he
      obtain ⟨hlen', hphase', hcause'⟩ := absorbBytes_frame he'
      exact ⟨by simp [h.responses], by simp [hphase, hphase', h.phase], by simp [hcause, hcause', h.cause],
        by simp [hlen, hlen', h.len]⟩
  | final =>
    obtain ⟨hs, rfl⟩ | ⟨hs, -⟩ | ⟨hs, e, he, rfl⟩ := execFinal_cases ht
    · rw [exec_final, execFinal_of_faulted (h.phase ▸ hs)] at hv
      cases hv
      exact h.respond _
    · exact absurd hs hp
    · obtain ⟨e', he', rfl⟩ := execFinal_next_of_absorbing hv (h.phase ▸ hs)
      obtain ⟨hlen, -, hcause, -⟩ := finalize_frame he
      obtain ⟨hlen', -, hcause', -⟩ := finalize_frame he'
      exact ⟨by simp [h.responses], rfl, by simp [hcause, hcause', h.cause], by simp [hlen, hlen', h.len]⟩
  | rddig idx =>
    obtain ⟨hs, rfl⟩ | ⟨hs, rfl⟩ | ⟨hs, -⟩ := execRddig_cases ht
    · rw [exec_rddig, execRddig_of_faulted idx (h.phase ▸ hs)] at hv
      cases hv
      exact h.respond _
    · rw [exec_rddig, execRddig_of_absorbing idx (h.phase ▸ hs)] at hv
      cases hv
      exact h.raiseFault _
    · exact absurd hs hp
  | rdstat =>
    cases ht
    cases hv
    rw [statusWord_congr h.phase h.cause]
    exact h.respond _

/-- Settles O42, by the simulation `State.AgreesButDigest.exec`. -/
theorem digestStateIsHiddenUntilFinalized : Obligations.DigestStateIsHiddenUntilFinalized := by
  intro s u t v i hs hphase hcause hlen hresponses ht hv
  obtain ⟨hr, hp, hc, hl⟩ := State.AgreesButDigest.exec ⟨hresponses, hphase, hcause, hlen⟩ hs ht hv
  exact ⟨hr, hp, hc, hl⟩

theorem State.SameToHost.responses_eq {s u : State} (h : s.SameToHost u) : s.responses = u.responses := by
  obtain rfl | ⟨-, hr, -⟩ := h
  · rfl
  · exact hr

theorem State.SameToHost.pending_eq {s u : State} (h : s.SameToHost u) : s.pending = u.pending := by
  obtain rfl | ⟨hp, -⟩ := h
  · rfl
  · exact hp

theorem State.SameToHost.withPending {s u : State} (h : s.SameToHost u) (as : List HostAction) :
    { s with pending := as }.SameToHost { u with pending := as } := by
  obtain rfl | ⟨-, hrest⟩ := h
  · exact .inl rfl
  · exact .inr ⟨rfl, hrest⟩

theorem State.SameToHost.respond {s u : State} (h : s.SameToHost u) (r : Response) :
    (s.respond r).SameToHost (u.respond r) := by
  obtain rfl | ⟨hp, hr, hrest⟩ := h
  · exact .inl rfl
  · exact .inr ⟨hp, congrArg (· ++ [r]) hr, hrest⟩

theorem State.SameToHost.raiseFault {s u : State} (h : s.SameToHost u) (code : Cause) :
    (raiseFault code s).SameToHost (raiseFault code u) := by
  obtain rfl | ⟨hp, hr, hphase, hcause, -⟩ := h
  · exact .inl rfl
  · exact .inr ⟨hp, congrArg (· ++ [faultResponse]) hr, by simp, enterFault_cause_congr code hphase hcause, by simp,
      by simp⟩

theorem State.SameToHost.exec {s u t : State} {i : Instr} (h : s.SameToHost u) (ht : exec i s = .next t) :
    ∃ v, exec i u = .next v ∧ t.SameToHost v := by
  have hsame := h
  obtain rfl | ⟨hpending, hresponses, hphase, hcause, hnot, hH⟩ := hsame
  · exact ⟨t, ht, .inl rfl⟩
  cases i with
  | init =>
    cases ht
    exact ⟨_, rfl, .inl (by rw [State.withEngine, State.withEngine, hpending, hresponses])⟩
  | update bytes =>
    obtain ⟨hs, rfl⟩ | ⟨hs, rfl⟩ | ⟨hs, -⟩ | ⟨hs, -⟩ := execUpdate_cases ht
    · exact ⟨_, execUpdate_of_faulted bytes (hphase ▸ hs), h.respond _⟩
    · exact ⟨_, execUpdate_of_finalized bytes (hphase ▸ hs), h.raiseFault _⟩
    · exact absurd hs hnot
    · exact absurd hs hnot
  | final =>
    obtain ⟨hs, rfl⟩ | ⟨hs, rfl⟩ | ⟨hs, -⟩ := execFinal_cases ht
    · exact ⟨_, execFinal_of_faulted (hphase ▸ hs), h.respond _⟩
    · exact ⟨_, execFinal_of_finalized (hphase ▸ hs), h.raiseFault _⟩
    · exact absurd hs hnot
  | rddig idx =>
    obtain ⟨hs, rfl⟩ | ⟨hs, -⟩ | ⟨hs, rfl⟩ := execRddig_cases ht
    · exact ⟨_, execRddig_of_faulted idx (hphase ▸ hs), h.respond _⟩
    · exact absurd hs hnot
    · rw [hH hs]
      exact ⟨_, execRddig_of_finalized idx (hphase ▸ hs), h.respond _⟩
  | rdstat =>
    cases ht
    rw [statusWord_congr hphase hcause]
    exact ⟨_, rfl, h.respond _⟩

theorem State.SameToHost.step {s u t : State} (h : s.SameToHost u) (ht : step s = .next t) :
    ∃ v, step u = .next v ∧ t.SameToHost v := by
  obtain ⟨hs, rfl⟩ | ⟨rest, hs, rfl⟩ | ⟨c, rest, why, hs, hc, rfl⟩ | ⟨c, rest, i, hs, hc, hi⟩ := step_cases ht
  all_goals rw [h.pending_eq] at hs
  · exact ⟨u, step_of_idle hs, h⟩
  · exact ⟨_, step_of_reset hs, .inl (congrArg (State.mk Engine.reset rest) h.responses_eq)⟩
  · exact ⟨_, step_of_illegal hs hc, (h.withPending rest).raiseFault _⟩
  · obtain ⟨v, hv, htv⟩ := (h.withPending rest).exec hi
    exact ⟨v, (step_of_command hs hc).trans hv, htv⟩

/-- Settles O43, by the simulation `State.SameToHost.step`. -/
theorem leftoversAreNotObservable : Obligations.LeftoversAreNotObservable := by
  intro s u t h ht
  obtain ⟨v, hv, htv⟩ := h.step ht
  exact ⟨v, hv, htv, htv.responses_eq⟩

/-! ## The STATUS word (R33) and the blocks of a padded message (R200) -/

/-- The four fields of STATUS, for each of the four causes in each of the three phases. -/
theorem statusWord_fields (e : Engine) :
    e.statusWord.extractLsb' 0 2 = e.phase.code ∧ e.statusWord.extractLsb' 2 2 = 0 ∧
    e.statusWord.extractLsb' 4 4 = e.cause.code ∧ e.statusWord.extractLsb' 8 24 = 0 := by
  unfold Engine.statusWord
  cases e.cause <;> cases e.phase <;> decide

theorem phase_code_ne_three (p : Phase) : p.code ≠ 3 := by cases p <;> decide

theorem cause_code_lt (c : Cause) : c.code.toNat < 4 := by cases c <;> decide

/-- Settles O26, field by field. -/
theorem statusWordLayout : Obligations.StatusWordLayout := by
  refine ⟨fun e => ?_, rfl⟩
  obtain ⟨hphase, hgap, hcause, hhigh⟩ := statusWord_fields e
  exact ⟨hphase, phase_code_ne_three e.phase, hgap, hcause, cause_code_lt e.cause, hhigh⟩

/-- Tail, terminator and length field fit one block when at most 55 bytes are left over, and need two otherwise (R200, R202). -/
theorem padded_length (L : Nat) : L + (pad L).length = 64 * (L / 64 + if L % 64 ≤ 55 then 1 else 2) := by
  have hlt := zeroCount_lt L
  have hadd := zeroCount_add L
  rw [pad_length]
  split <;> omega

/-- Settles O53, by the length of the padded message. -/
theorem blockCountOfAMessage : Obligations.BlockCountOfAMessage := by
  intro m
  refine ⟨completeBlocks_length m, ?_⟩
  rw [completeBlocks_length, List.length_append, padded_length, Nat.mul_div_cancel_left _ (by decide)]

end Sys2Proof.Machine
end

section
/-!
PROOFS of the family 20_memory.md: INIT, RDSTAT and a successful RDDIG are idempotent (R67).
-/

namespace Sys2Proof.Machine

/-- INIT sets the whole engine, whatever it was, so a second INIT finds nothing left to change. -/
theorem execInit_again {s t : State} (h : execInit s = .next t) :
    t.responses = s.responses ++ [okResponse 0] ∧ execInit t = .next (t.respond (okResponse 0)) := by
  cases h
  exact ⟨rfl, rfl⟩

/-- RDSTAT keeps the engine, so a second RDSTAT reads the same STATUS word. -/
theorem execRdstat_again {s t : State} (h : execRdstat s = .next t) :
    t.responses = s.responses ++ [okResponse s.engine.statusWord] ∧
    execRdstat t = .next (t.respond (okResponse s.engine.statusWord)) := by
  cases h
  exact ⟨rfl, rfl⟩

/-- RDDIG answers FAULT, or it read a word of a digest that stays in place, and a second RDDIG reads the same word. -/
theorem execRddig_again {idx : Fin 8} {s t : State} (h : execRddig idx s = .next t) :
    t.responses = s.responses ++ [faultResponse] ∨
    (t.responses = s.responses ++ [okResponse s.engine.h[idx]] ∧
      execRddig idx t = .next (t.respond (okResponse s.engine.h[idx]))) := by
  obtain ⟨-, rfl⟩ | ⟨-, rfl⟩ | ⟨hp, rfl⟩ := execRddig_cases h
  · exact .inl (rejectCommand_responses s)
  · exact .inl (raiseFault_responses _ s)
  · exact .inr ⟨State.respond_responses s _, execRddig_of_finalized idx hp⟩

/-- Settles O27, command by command: the answer of the first run is the answer of the second. -/
theorem initAndReadsAreIdempotent : Obligations.InitAndReadsAreIdempotent := by
  intro s t i v hi ht hv
  have answer_eq {r : Response} (hr : t.responses = s.responses ++ [r]) : r = ⟨.ok, v⟩ := by
    simpa [hr] using hv
  obtain rfl | rfl | ⟨idx, rfl⟩ := hi
  · obtain ⟨hr, hagain⟩ := execInit_again ht
    exact answer_eq hr ▸ hagain
  · obtain ⟨hr, hagain⟩ := execRdstat_again ht
    exact answer_eq hr ▸ hagain
  · obtain hr | ⟨hr, hagain⟩ := execRddig_again ht
    · cases answer_eq hr
    · exact answer_eq hr ▸ hagain

end Sys2Proof.Machine
end

section
/-!
PROOFS of the family 30_encoding.md: decoding and encoding command words, ILLEGAL words, UPDATE's operands and the opcode table.
-/

namespace Sys2Proof

/-! ## Fields under a mask -/

@[simp] theorem opField_and (c m : CommandWord) : opField (c &&& m) = opField c &&& opField m := BitVec.extractLsb'_and
@[simp] theorem argField_and (c m : CommandWord) : argField (c &&& m) = argField c &&& argField m :=
  BitVec.extractLsb'_and
@[simp] theorem resField_and (c m : CommandWord) : resField (c &&& m) = resField c &&& resField m :=
  BitVec.extractLsb'_and
@[simp] theorem dataField_and (c m : CommandWord) : dataField (c &&& m) = dataField c &&& dataField m :=
  BitVec.extractLsb'_and

theorem word_eq_iff {c d : CommandWord} :
    c = d ↔ opField c = opField d ∧ argField c = argField d ∧ resField c = resField d ∧ dataField c = dataField d := by
  constructor
  · rintro rfl
    exact ⟨rfl, rfl, rfl, rfl⟩
  · rintro ⟨hop, harg, hres, hdata⟩
    rw [word_eq_fields c, word_eq_fields d, hop, harg, hres, hdata]

/-- The fields of a mask whose `k` low bits, all in DATA, are zero. (As a numeral, `BitVec.allOnes 64` would not show its bits to
`simp`.) -/
theorem shiftedOnes_fields {k : Nat} (hk : k ≤ 32) :
    opField (BitVec.allOnes 64 <<< k) = BitVec.allOnes 4 ∧ argField (BitVec.allOnes 64 <<< k) = BitVec.allOnes 4 ∧
    resField (BitVec.allOnes 64 <<< k) = BitVec.allOnes 24 ∧
    dataField (BitVec.allOnes 64 <<< k) = BitVec.allOnes 32 <<< k := by
  have hones : ∀ lo n, 32 ≤ lo → lo + n ≤ 64 → (BitVec.allOnes 64 <<< k).extractLsb' lo n = BitVec.allOnes n :=
    fun lo n hlo hn => BitVec.eq_of_getLsbD_eq fun i hi => by
      simp [-BitVec.reduceAllOnes, hi, show k ≤ lo + i by omega, show lo + i < 64 by omega]
  refine ⟨hones 60 4 (by omega) (by omega), hones 56 4 (by omega) (by omega), hones 32 24 (by omega) (by omega), ?_⟩
  refine BitVec.eq_of_getLsbD_eq fun i hi => ?_
  simp [-BitVec.reduceAllOnes, dataField, hi, show i < 64 by omega]

/-- Clearing low bits of DATA clears them in the word. -/
theorem commandWord_and_shiftedOnes (op arg : BitVec 4) (data : BitVec 32) {k : Nat} (hk : k ≤ 32) :
    commandWord op arg data &&& (BitVec.allOnes 64 <<< k) = commandWord op arg (data &&& (BitVec.allOnes 32 <<< k)) := by
  obtain ⟨hop, harg, hres, hdata⟩ := shiftedOnes_fields hk
  simp [word_eq_iff, hop, harg, hres, hdata, -BitVec.reduceAllOnes]

/-! ## Lanes -/

theorem packLanes_dataLanes (data : BitVec 32) : packLanes (dataLanes data) = data := by
  simp only [packLanes, dataLanes, List.getD_cons_zero, List.getD_cons_succ]
  rw [BitVec.extractLsb'_append_extractLsb'_eq_extractLsb' (by rfl),
    BitVec.extractLsb'_append_extractLsb'_eq_extractLsb' (by rfl),
    BitVec.extractLsb'_append_extractLsb'_eq_extractLsb' (by rfl)]
  exact BitVec.extractLsb'_eq_self

theorem byteCountField_pos (arg : BitVec 4) : 1 ≤ byteCountField arg := Nat.le_add_left ..

/-- Packing the first `n` lanes zeroes the others. -/
theorem packLanes_take_dataLanes (data : BitVec 32) {n : Nat} (hpos : 1 ≤ n) (hle : n ≤ 4) :
    packLanes ((dataLanes data).take n) = data &&& (BitVec.allOnes 32 <<< (8 * (4 - n))) := by
  have hlane : ∀ b : Byte, b &&& 255#8 = b := fun _ => BitVec.and_allOnes
  rw [← packLanes_dataLanes (data &&& _)]
  interval_cases n <;> simp [dataLanes, packLanes, BitVec.extractLsb'_and, hlane]

/-! ## Encoding what a word decodes to -/

theorem length_take_dataLanes (data : BitVec 32) (arg : BitVec 4) :
    ((dataLanes data).take (byteCountField arg)).length = byteCountField arg := by
  rw [List.length_take, dataLanes_length, Nat.min_eq_left (byteCountField_le arg)]

/-- The count field is written back as it was read (R86). -/
theorem ofNat_byteCountField : ∀ {arg : BitVec 4}, arg.extractLsb' 2 2 = 0 →
    BitVec.ofNat 4 (byteCountField arg - 1) = arg := by
  decide

/-- So is the index field (R87). -/
theorem ofNat_indexField : ∀ {arg : BitVec 4}, arg.extractLsb' 3 1 = 0 →
    BitVec.ofNat 4 (arg.extractLsb' 0 3).toFin = arg := by
  decide

theorem wellFormed_of_decode {c : CommandWord} {i : Instr} (h : decode c = .command i) : i.wellFormed = true := by
  obtain ⟨-, ⟨-, -, -, rfl⟩ | ⟨-, -, rfl⟩ | ⟨-, -, -, rfl⟩ | ⟨-, -, -, rfl⟩ | ⟨-, -, -, rfl⟩⟩ :=
    decode_eq_command_iff.mp h
  case inr.inl =>
    rw [wellFormed_update_iff, length_take_dataLanes]
    exact ⟨byteCountField_pos _, byteCountField_le _⟩
  all_goals rfl

theorem canonical_commandWord_update (arg : BitVec 4) (data : BitVec 32) :
    canonical (commandWord 0x2#4 arg data) =
      commandWord 0x2#4 arg (packLanes ((dataLanes data).take (byteCountField arg))) := by
  rw [canonical, opField_commandWord, argField_commandWord, if_pos rfl, commandWord_and_shiftedOnes _ _ _ (by omega),
    packLanes_take_dataLanes data (byteCountField_pos arg) (byteCountField_le arg)]

theorem canonical_commandWord_of_ne {op : BitVec 4} (h : op ≠ 0x2#4) (arg : BitVec 4) (data : BitVec 32) :
    canonical (commandWord op arg data) = commandWord op arg data := by
  rw [canonical, opField_commandWord, if_neg h]

theorem encode_of_decode {c : CommandWord} {i : Instr} (h : decode c = .command i) : encode i = canonical c := by
  obtain ⟨hres, hcases⟩ := decode_eq_command_iff.mp h
  rw [word_eq_commandWord hres]
  obtain ⟨hop, harg, hdata, rfl⟩ | ⟨hop, harg, rfl⟩ | ⟨hop, harg, hdata, rfl⟩ | ⟨hop, harg, hdata, rfl⟩ |
    ⟨hop, harg, hdata, rfl⟩ := hcases
  · rw [hop, harg, hdata]
    exact (canonical_commandWord_of_ne (by decide) 0 0).symm
  · rw [hop, canonical_commandWord_update, encode, length_take_dataLanes, ofNat_byteCountField harg]
    rfl
  · rw [hop, harg, hdata]
    exact (canonical_commandWord_of_ne (by decide) 0 0).symm
  · rw [hop, hdata, canonical_commandWord_of_ne (by decide), encode, ofNat_indexField harg]
    rfl
  · rw [hop, harg, hdata]
    exact (canonical_commandWord_of_ne (by decide) 0 0).symm

/-- Settles O1, by the fields of each command's word. -/
theorem decodeOfEncodeIsTheCommand : Obligations.DecodeOfEncodeIsTheCommand :=
  fun _ => decode_encode

/-- Settles O2, by the commands a word can decode to. -/
theorem encodeOfDecodeIsCanonical : Obligations.EncodeOfDecodeIsCanonical :=
  fun _ _ h => ⟨wellFormed_of_decode h, encode_of_decode h⟩

/-! ## The raw bits of the operands -/

theorem extractLsb'_argField (c : CommandWord) {lo n : Nat} (h : lo + n ≤ 4) :
    (argField c).extractLsb' lo n = c.extractLsb' (56 + lo) n :=
  BitVec.eq_of_getLsbD_eq fun i hi => by
    simp [argField, hi, show lo + i < 4 by omega, Nat.add_assoc]

theorem extractLsb'_dataField (c : CommandWord) {lo n : Nat} (h : lo + n ≤ 32) :
    (dataField c).extractLsb' lo n = c.extractLsb' lo n :=
  BitVec.extractLsb'_extractLsb'_of_le h

theorem extractLsb'_one_eq_zero_iff (c : CommandWord) (k : Nat) : c.extractLsb' k 1 = 0 ↔ c.getLsbD k = false := by
  constructor
  · intro h
    simpa using congrArg (BitVec.getLsbD · 0) h
  · intro h
    ext i hi
    obtain rfl : i = 0 := by omega
    simpa using h

theorem getElem_dataLanes (data : BitVec 32) {k : Nat} (h : k < (dataLanes data).length) :
    (dataLanes data)[k] = data.extractLsb' (24 - 8 * k) 8 := by
  match k, h with
  | 0, _ | 1, _ | 2, _ | 3, _ => rfl

theorem lane_packLanes (bytes : List Byte) {k : Nat} (h : k < 4) :
    (packLanes bytes).extractLsb' (24 - 8 * k) 8 = bytes.getD k 0 := by
  rw [← getElem_dataLanes _ h]
  simp only [dataLanes_packLanes]
  match k, h with
  | 0, _ | 1, _ | 2, _ | 3, _ => rfl

/-! ## ILLEGAL words (R89) -/

/-- The words that decode to some command, by their fields. -/
theorem decode_command_iff {c : CommandWord} :
    (∃ i, decode c = .command i) ↔
      resField c = 0 ∧
      (((opField c = 0x1 ∨ opField c = 0x3 ∨ opField c = 0x5) ∧ argField c = 0 ∧ dataField c = 0) ∨
       (opField c = 0x2 ∧ (argField c).extractLsb' 2 2 = 0) ∨
       (opField c = 0x4 ∧ (argField c).extractLsb' 3 1 = 0 ∧ dataField c = 0)) := by
  simp only [decode_eq_command_iff, exists_and_left, exists_or, exists_eq, and_true]
  tauto

theorem decode_illegal_iff {c : CommandWord} : (∃ why, decode c = .illegal why) ↔ ¬ ∃ i, decode c = .command i := by
  cases decode c <;> simp

theorem reservedOpcode_iff : ∀ op : BitVec 4,
    (op = 0x0 ∨ 0x6 ≤ op.toNat) ↔ ¬ (op = 0x1 ∨ op = 0x2 ∨ op = 0x3 ∨ op = 0x4 ∨ op = 0x5) := by
  decide

/-- Settles O3: the words that decode to no command, opcode by opcode. -/
theorem illegalWordsAreExactlyThese : Obligations.IllegalWordsAreExactlyThese := by
  intro c
  rw [decode_illegal_iff, decode_command_iff, extractLsb'_argField c (by omega), extractLsb'_argField c (by omega),
    extractLsb'_one_eq_zero_iff]
  change _ ↔ resField c ≠ 0 ∨ (opField c = 0x0 ∨ 0x6 ≤ (opField c).toNat) ∨
    ((opField c = 0x1 ∨ opField c = 0x3 ∨ opField c = 0x5) ∧ (argField c ≠ 0 ∨ dataField c ≠ 0)) ∨
    (opField c = 0x2 ∧ c.extractLsb' 58 2 ≠ 0) ∨ (opField c = 0x4 ∧ (c.getLsbD 59 = true ∨ dataField c ≠ 0))
  rw [reservedOpcode_iff]
  by_cases h : opField c = 0x1 ∨ opField c = 0x2 ∨ opField c = 0x3 ∨ opField c = 0x4 ∨ opField c = 0x5
  · obtain h | h | h | h | h := h <;> simp [h, Classical.or_iff_not_imp_left]
  · tauto

/-! ## Operands of UPDATE (R86) -/

theorem decode_update_of_fields {c : CommandWord} (hop : opField c = 0x2#4) (harg : c.extractLsb' 58 2 = 0)
    (hres : resField c = 0) :
    decode c = .command (.update ((dataLanes (dataField c)).take (byteCountField (argField c)))) :=
  decode_eq_command_iff.mpr ⟨hres, .inr (.inl ⟨hop, (extractLsb'_argField c (by omega)).trans harg, rfl⟩)⟩

/-- Settles O4: the lanes of DATA are the bytes of the word from `C[31:24]` down. -/
theorem updateOperandsAreTheFirstLanes : Obligations.UpdateOperandsAreTheFirstLanes := by
  refine ⟨fun c hop harg hres => ⟨_, decode_update_of_fields hop harg hres, ?_, fun k hk => ?_⟩, fun c hop harg => ?_,
    fun bytes _ k hk hk4 => ?_⟩
  · rw [length_take_dataLanes, byteCountField, extractLsb'_argField c (by omega)]
  · rw [List.getElem_take, getElem_dataLanes, extractLsb'_dataField c (by omega)]
  · exact (illegalWordsAreExactlyThese c).mpr (.inr (.inr (.inr (.inl ⟨hop, harg⟩))))
  · rw [encode, ← extractLsb'_dataField _ (by omega), dataField_commandWord, lane_packLanes bytes hk4,
      List.getD_eq_default _ _ hk]

/-! ## The opcode table (R82) -/

/-- A mask test, field by field. -/
theorem and_eq_iff_fields {c m p : CommandWord} :
    c &&& m = p ↔ opField c &&& opField m = opField p ∧ argField c &&& argField m = argField p ∧
      resField c &&& resField m = resField p ∧ dataField c &&& dataField m = dataField p := by
  rw [word_eq_iff, opField_and, argField_and, resField_and, dataField_and]

theorem and_allOnes_eq_commandWord_iff {c : CommandWord} {op : BitVec 4} :
    c &&& BitVec.allOnes 64 = commandWord op 0 0 ↔
      resField c = 0 ∧ opField c = op ∧ argField c = 0 ∧ dataField c = 0 := by
  rw [BitVec.and_allOnes, word_eq_iff, opField_commandWord, argField_commandWord, resField_commandWord,
    dataField_commandWord]
  tauto

theorem updateRow_iff {c : CommandWord} :
    c &&& 0xFCFFFFFF00000000 = 0x2000000000000000 ↔
      resField c = 0 ∧ opField c = 0x2#4 ∧ (argField c).extractLsb' 2 2 = 0 := by
  have harg : ∀ arg : BitVec 4, arg &&& 0xC#4 = 0#4 ↔ arg.extractLsb' 2 2 = 0 := by decide
  rw [and_eq_iff_fields]
  change opField c &&& BitVec.allOnes 4 = 0x2#4 ∧ argField c &&& 0xC#4 = 0#4 ∧
    resField c &&& BitVec.allOnes 24 = 0 ∧ dataField c &&& 0#32 = 0#32 ↔ _
  rw [BitVec.and_allOnes, BitVec.and_allOnes, BitVec.and_zero, harg]
  tauto

theorem rddigRow_iff {c : CommandWord} :
    c &&& 0xF8FFFFFFFFFFFFFF = 0x4000000000000000 ↔
      resField c = 0 ∧ opField c = 0x4#4 ∧ (argField c).extractLsb' 3 1 = 0 ∧ dataField c = 0 := by
  have harg : ∀ arg : BitVec 4, arg &&& 0x8#4 = 0#4 ↔ arg.extractLsb' 3 1 = 0 := by decide
  rw [and_eq_iff_fields]
  change opField c &&& BitVec.allOnes 4 = 0x4#4 ∧ argField c &&& 0x8#4 = 0#4 ∧
    resField c &&& BitVec.allOnes 24 = 0 ∧ dataField c &&& BitVec.allOnes 32 = 0 ↔ _
  rw [BitVec.and_allOnes, BitVec.and_allOnes, BitVec.and_allOnes, harg]
  tauto

/-- The words that decode to a command of one mnemonic. -/
theorem decode_mnemonic_iff {c : CommandWord} {name : String} :
    (∃ i, decode c = .command i ∧ i.mnemonic = name) ↔
      resField c = 0 ∧
      ((opField c = 0x1#4 ∧ argField c = 0 ∧ dataField c = 0 ∧ "INIT" = name) ∨
       (opField c = 0x2#4 ∧ (argField c).extractLsb' 2 2 = 0 ∧ "UPDATE" = name) ∨
       (opField c = 0x3#4 ∧ argField c = 0 ∧ dataField c = 0 ∧ "FINAL" = name) ∨
       (opField c = 0x4#4 ∧ (argField c).extractLsb' 3 1 = 0 ∧ dataField c = 0 ∧ "RDDIG" = name) ∨
       (opField c = 0x5#4 ∧ argField c = 0 ∧ dataField c = 0 ∧ "RDSTAT" = name)) := by
  simp only [decode_eq_command_iff, and_assoc, or_and_right, exists_and_left, exists_or, exists_eq_left,
    Instr.mnemonic]

/-- Settles O5: a row's mask test and the decoder's checks are the same conditions on the fields. -/
theorem decodeMatchesTheOpcodeTable : Obligations.DecodeMatchesTheOpcodeTable := by
  intro c r hr
  rw [decode_mnemonic_iff]
  simp only [opcodeTable, List.mem_cons, List.not_mem_nil, or_false] at hr
  obtain rfl | rfl | rfl | rfl | rfl := hr
  · exact .trans (by simp) (and_allOnes_eq_commandWord_iff (op := 0x1#4)).symm
  · exact .trans (by simp) updateRow_iff.symm
  · exact .trans (by simp) (and_allOnes_eq_commandWord_iff (op := 0x3#4)).symm
  · exact .trans (by simp) rddigRow_iff.symm
  · exact .trans (by simp) (and_allOnes_eq_commandWord_iff (op := 0x5#4)).symm

/-! ## R94's example words -/

/-- Settles O6: the encoder gives the legal words, and decoding gives their commands back. -/
theorem decodeOfTheExampleWords : Obligations.DecodeOfTheExampleWords := by
  refine ⟨rfl, rfl, rfl, rfl, rfl, rfl, rfl, ?_, ?_, ?_, ?_, ?_, ?_, ?_, ⟨_, rfl⟩, ⟨_, rfl⟩, ⟨_, rfl⟩, rfl⟩
  · exact decode_encode (i := .init) rfl
  · exact decode_encode (i := .update [0x61]) rfl
  · exact decode_encode (i := .update [0x61, 0x62, 0x63]) rfl
  · exact decode_encode (i := .update [0x80, 0, 0, 1]) rfl
  · exact decode_encode (i := .final) rfl
  · exact decode_encode (i := .rddig 7) rfl
  · exact decode_encode (i := .rdstat) rfl

end Sys2Proof
end

section
/-!
PROOFS of the family 30_encoding.md: the pieces of ABSORB, lexing and parsing the canonical line (R91, R92, R93), and the step of an
ILLEGAL word.
-/

namespace Sys2Proof.Machine

/-! ## ABSORB (R92) -/

/-- Piece `k` is the four bytes from `4k`, or what is left of them. -/
theorem updateChunks_getElem (m : List Byte) {k : Nat} (h : k < (updateChunks m).length) :
    (updateChunks m)[k] = (m.drop (4 * k)).take 4 := by
  induction m using updateChunks.induct generalizing k with
  | case1 => cases h
  | case5 b0 b1 b2 b3 rest ih =>
    match k with
    | 0 => rfl
    | k + 1 => exact ih (Nat.lt_of_succ_lt_succ h)
  | _ =>
    obtain rfl : k = 0 := Nat.lt_one_iff.mp h
    rfl

/-- Settles O7: the pieces of ABSORB are `updateChunks`. -/
theorem pseudoInstructionsExpandAsTheRuleSays : Obligations.PseudoInstructionsExpandAsTheRuleSays :=
  ⟨rfl, rfl, rfl, fun m => ⟨updateChunks m, rfl, updateChunks_length m, fun _ h =>
    ⟨updateChunks_getElem m h, updateChunks_wellFormed m _ (List.getElem_mem h)⟩⟩⟩

/-! ## Lexing words -/

/-- A letter or digit opens a word: it is none of the characters `lexGap` asks for before. -/
theorem lexGap_of_isWordChar {c : Char} (h : isWordChar c = true) : lexGap c = .go [] (.inWord [c]) := by
  have hne : ∀ d : Char, isWordChar d = false → c ≠ d := by
    rintro d hd rfl
    simp [hd] at h
  have hquote : c.toNat ≠ 0x27 ∧ c.toNat ≠ 0x22 := by
    constructor <;> intro hc <;> simp [isWordChar, hc] at h
  unfold lexGap
  rw [if_neg (hne _ (by decide)), if_neg (not_or.mpr ⟨hne _ (by decide), hne _ (by decide)⟩), if_neg (hne _ (by decide)),
    if_neg hquote.1, if_neg hquote.2, if_pos h]

/-- In a word, letters and digits are collected. -/
theorem lexFrom_inWord_append {w : List Char} (hw : ∀ c ∈ w, isWordChar c = true) (seen rest : List Char) :
    lexFrom (.inWord seen) (w ++ rest) = lexFrom (.inWord (w.reverse ++ seen)) rest := by
  induction w generalizing seen with
  | nil => rfl
  | cons c w ih =>
    obtain ⟨hc, hw⟩ := List.forall_mem_cons.mp hw
    rw [List.cons_append, lexFrom, lexChar, if_pos hc]
    simp [ih hw]

theorem lexFrom_gap_append {c : Char} {w : List Char} (hw : ∀ d ∈ c :: w, isWordChar d = true) (rest : List Char) :
    lexFrom .gap (c :: w ++ rest) = lexFrom (.inWord (c :: w).reverse) rest := by
  obtain ⟨hc, hw⟩ := List.forall_mem_cons.mp hw
  rw [List.cons_append, lexFrom, lexChar, lexGap_of_isWordChar hc]
  simp [lexFrom_inWord_append hw]

/-- A word at the end of the line. -/
theorem lexFrom_inWord_nil (seen : List Char) : lexFrom (.inWord seen) [] = some [.word seen.reverse] := rfl

/-- A word before a blank. -/
theorem lexFrom_inWord_blank (seen rest : List Char) :
    lexFrom (.inWord seen) (' ' :: rest) = (lexFrom .gap rest).map (.word seen.reverse :: ·) := rfl

/-- A word before a comma and a blank. -/
theorem lexFrom_inWord_comma (seen rest : List Char) :
    lexFrom (.inWord seen) (',' :: ' ' :: rest) = (lexFrom .gap rest).map (.word seen.reverse :: .comma :: ·) := by
  change ((lexFrom .gap rest).map ([] ++ ·)).map ([.word seen.reverse, .comma] ++ ·) = _
  simp

/-! ## Byte operands -/

theorem isWordChar_hexDigit : ∀ n < 16, isWordChar (hexDigit n) = true := by decide

theorem digitValue_hexDigit : ∀ n < 16, digitValue 16 (hexDigit n) = some n := by decide

theorem byteText_isWordChar (b : Byte) : ∀ c ∈ byteText b, isWordChar c = true := by
  have hhigh := isWordChar_hexDigit (b.toNat / 16) (by omega)
  have hlow := isWordChar_hexDigit (b.toNat % 16) (by omega)
  exact List.forall_mem_cons.mpr ⟨rfl, List.forall_mem_cons.mpr ⟨rfl, by simp [hhigh, hlow]⟩⟩

theorem numberValue_byteText (b : Byte) : numberValue (byteText b) = some b.toNat := by
  have hhigh := digitValue_hexDigit (b.toNat / 16) (by omega)
  have hlow := digitValue_hexDigit (b.toNat % 16) (by omega)
  simp [byteText, numberValue, digitsValue, hhigh, hlow, Nat.div_add_mod']

theorem byteOperand_byteText (b : Byte) : byteOperand (.word (byteText b)) = some b := by
  simp [byteOperand, numberValue_byteText, b.isLt]

/-- The tokens of byte operands in a canonical line. -/
def byteTokens (bytes : List Byte) : List Token :=
  (bytes.map fun b => .word (byteText b)).intersperse .comma

theorem lexFrom_byteListText : ∀ bytes : List Byte, lexFrom .gap (byteListText bytes) = some (byteTokens bytes)
  | [] => rfl
  | [b] => by
    have h := lexFrom_gap_append (byteText_isWordChar b) []
    rwa [List.append_nil, lexFrom_inWord_nil, List.reverse_reverse] at h
  | b :: b' :: bytes => by
    have h := lexFrom_gap_append (byteText_isWordChar b) (',' :: ' ' :: byteListText (b' :: bytes))
    rwa [lexFrom_inWord_comma, List.reverse_reverse, lexFrom_byteListText (b' :: bytes)] at h

theorem byteOperands_byteTokens : ∀ {bytes : List Byte}, bytes ≠ [] → byteOperands (byteTokens bytes) = some bytes
  | [b], _ => by simp [byteTokens, byteOperands, byteOperand_byteText]
  | b :: b' :: bytes, _ => by
    have ih := byteOperands_byteTokens (List.cons_ne_nil b' bytes)
    change byteOperands (.word (byteText b) :: .comma :: byteTokens (b' :: bytes)) = _
    rw [byteOperands, byteOperand_byteText, Option.bind_some, ih]
    rfl

/-! ## The canonical line (R91, R93) -/

theorem parseLine_update {bytes : List Byte} (h : (Instr.update bytes).wellFormed = true) :
    parseLine (commandText (.update bytes)) = some (some (.command (.update bytes))) := by
  have hne : bytes ≠ [] := by
    rintro rfl
    cases h
  have hlex : lexFrom .gap (commandText (.update bytes)) =
      some (.word ['U', 'P', 'D', 'A', 'T', 'E'] :: byteTokens bytes) := by
    have hword := lexFrom_gap_append (c := 'U') (w := ['P', 'D', 'A', 'T', 'E']) (List.all_eq_true.mp rfl)
      (' ' :: byteListText bytes)
    rwa [lexFrom_inWord_blank, lexFrom_byteListText] at hword
  rw [parseLine, hlex, Option.bind_some, parseTokens, byteOperands_byteTokens hne, Option.bind_some, if_pos h]

theorem parseLine_rddig : ∀ idx : Fin 8, parseLine (commandText (.rddig idx)) = some (some (.command (.rddig idx))) := by
  decide

theorem parseLine_commandText {i : Instr} (h : i.wellFormed = true) :
    parseLine (commandText i) = some (some (.command i)) := by
  cases i with
  | init => rfl
  | update bytes => exact parseLine_update h
  | final => rfl
  | rddig idx => exact parseLine_rddig idx
  | rdstat => rfl

theorem assembleLine_of_parseLine {line : List Char} {l : AsmLine} (h : parseLine line = some (some l)) :
    assembleLine line = some l.words := by
  rw [assembleLine, h]
  rfl

/-- Settles O8: the line parses to its command, and a command's words are its one encoding. -/
theorem assemblingTheCanonicalLineGivesTheWord : Obligations.AssemblingTheCanonicalLineGivesTheWord :=
  fun _ h => ⟨parseLine_commandText h, assembleLine_of_parseLine (parseLine_commandText h)⟩

/-! ## The step of an ILLEGAL word (R89) -/

/-- Settles O10: the step is fault entry with E_ILLEGAL, in its two cases. -/
theorem illegalWordRaisesEIllegal : Obligations.IllegalWordRaisesEIllegal := by
  intro s c rest why hs hc
  have hstep := step_of_illegal hs hc
  exact ⟨fun hp => hstep.trans (congrArg _ (raiseFault_of_running (s := { s with pending := rest }) hp)),
    fun hp => hstep.trans (congrArg _ (raiseFault_of_faulted (s := { s with pending := rest }) hp))⟩

end Sys2Proof.Machine
end

section
/-!
PROOFS of the family 40_hasher_core.md: a command depends on the engine alone, what UPDATE absorbs and leaves unchanged, streaming and
full-block equivalence, the commands phase by phase with their words, and the digest of the empty message.
-/

namespace Sys2Proof

/-! ## Commands with one word (R84, R87, R91) -/

theorem canonical_of_ne {c : CommandWord} (h : opField c ≠ 0x2#4) : canonical c = c := if_neg h

/-- Every command but UPDATE, which ignores lanes, has its canonical word as its one encoding. -/
theorem decode_eq_command_iff_eq_encode {c : CommandWord} {i : Instr} (hi : ∀ bytes, i ≠ .update bytes) :
    decode c = .command i ↔ c = encode i := by
  constructor
  · intro h
    rw [encode_of_decode h, canonical_of_ne]
    intro hop
    obtain ⟨-, ⟨hop', -⟩ | ⟨-, -, hu⟩ | ⟨hop', -⟩ | ⟨hop', -⟩ | ⟨hop', -⟩⟩ := decode_eq_command_iff.mp h
    case inr.inl => exact hi _ hu
    all_goals cases hop.symm.trans hop'
  · rintro rfl
    refine decode_encode ?_
    cases i with
    | update bytes => exact absurd rfl (hi bytes)
    | _ => rfl

theorem encode_rddig_eq : ∀ idx : Fin 8,
    encode (.rddig idx) = 0x4000000000000000 + BitVec.ofNat 64 (idx.val * 2 ^ 56) := by
  decide

end Sys2Proof

namespace Sys2Proof.Machine

/-! ## A command depends on the engine alone (R122) -/

theorem execUpdate_eq_fault_iff {bytes : List Byte} {s : State} {x : Fault} :
    execUpdate bytes s = .fault x ↔
      s.engine.phase = .absorbing ∧ s.engine.len + bytes.length ≤ Config.maxLen ∧
        absorbBytes bytes s.engine = .error x := by
  cases hp : s.engine.phase with
  | faulted => simp [execUpdate_of_faulted bytes hp]
  | finalized => simp [execUpdate_of_finalized bytes hp]
  | absorbing =>
    by_cases hl : s.engine.len + bytes.length ≤ Config.maxLen
    · cases he : absorbBytes bytes s.engine with
      | ok e => simp [execUpdate_of_absorbing hp hl he]
      | error y => simp [execUpdate, hp, wouldOverflow_iff, hl, not_lt.mpr hl, he]
    · simp [execUpdate_of_overflow hp (not_le.mp hl), hl]

theorem execFinal_eq_fault_iff {s : State} {x : Fault} :
    execFinal s = .fault x ↔ s.engine.phase = .absorbing ∧ finalize s.engine = .error x := by
  cases hp : s.engine.phase with
  | faulted => simp [execFinal_of_faulted hp]
  | finalized => simp [execFinal_of_finalized hp]
  | absorbing =>
    cases he : finalize s.engine with
    | ok e => simp [execFinal_of_absorbing hp he]
    | error y => simp [execFinal, hp, he]

theorem execRddig_goesOn (idx : Fin 8) (s : State) : GoesOn (execRddig idx s) := by
  cases hp : s.engine.phase with
  | absorbing => exact ⟨_, execRddig_of_absorbing idx hp⟩
  | finalized => exact ⟨_, execRddig_of_finalized idx hp⟩
  | faulted => exact ⟨_, execRddig_of_faulted idx hp⟩

/-- A model stop is one of absorbing or of finalizing the engine. -/
theorem exec_eq_fault_iff {i : Instr} {s : State} {x : Fault} :
    exec i s = .fault x ↔
      s.engine.phase = .absorbing ∧
        ((∃ bytes, i = .update bytes ∧ s.engine.len + bytes.length ≤ Config.maxLen ∧
          absorbBytes bytes s.engine = .error x) ∨
         (i = .final ∧ finalize s.engine = .error x)) := by
  cases i with
  | init => simp [exec_init, execInit]
  | update bytes => simp [exec_update, execUpdate_eq_fault_iff]
  | final => simp [exec_final, execFinal_eq_fault_iff]
  | rddig idx =>
    obtain ⟨t, ht⟩ := execRddig_goesOn idx s
    simp [exec_rddig, ht]
  | rdstat => simp [exec_rdstat, execRdstat]

theorem exec_ne_refused (i : Instr) (s : State) (r : Refusal) : exec i s ≠ .refused r := by
  cases i with
  | init => nofun
  | update bytes =>
    rw [exec_update, execUpdate]
    split_ifs
    · nofun
    · nofun
    · nofun
    · cases absorbBytes bytes s.engine <;> nofun
  | final =>
    rw [exec_final, execFinal]
    split_ifs
    · nofun
    · nofun
    · cases finalize s.engine <;> nofun
  | rddig idx =>
    obtain ⟨t, ht⟩ := execRddig_goesOn idx s
    rw [exec_rddig, ht]
    nofun
  | rdstat => nofun

/-- Settles O14: what goes on and what stops are each the same in every state with that engine. -/
theorem commandsDependOnTheEngineAlone : Obligations.CommandsDependOnTheEngineAlone := by
  intro i
  have answer : ∀ e : Engine, ∃ a : Except Fault (Engine × Response), ∀ s : State, s.engine = e →
      exec i s = match a with
        | .ok (e', r) => .next { engine := e', pending := s.pending, responses := s.responses ++ [r] }
        | .error x => .fault x := by
    intro e
    cases h : exec i ⟨e, [], []⟩ with
    | next t =>
      obtain ⟨e', r, -, hnext⟩ := exec_next_of_engine_eq h
      exact ⟨.ok (e', r), hnext⟩
    | fault x =>
      refine ⟨.error x, fun s hs => ?_⟩
      subst hs
      exact exec_eq_fault_iff.mpr (exec_eq_fault_iff (s := ⟨s.engine, [], []⟩).mp h)
    | refused r => exact absurd h (exec_ne_refused i _ r)
  choose f hf using answer
  exact ⟨f, fun s => hf s.engine s rfl⟩

/-! ## Streaming (R115) -/

/-- UPDATEs one after another do to the engine what absorbing all their bytes does. -/
theorem execAll_updates_of_absorbBytes {s : State} {e : Engine} (pieces : List (List Byte))
    (hp : s.engine.phase = .absorbing) (hl : s.engine.len + pieces.flatten.length ≤ Config.maxLen)
    (he : absorbBytes pieces.flatten s.engine = .ok e) :
    ∃ t, execAll (pieces.map .update) s = .next t ∧ t.engine = e := by
  induction pieces generalizing s with
  | nil => exact ⟨s, rfl, Except.ok.inj he⟩
  | cons bytes pieces ih =>
    rw [List.flatten_cons, List.length_append] at hl
    rw [List.flatten_cons, absorbBytes_append] at he
    cases h1 : absorbBytes bytes s.engine with
    | error x => rw [h1] at he; cases he
    | ok e1 =>
      rw [h1] at he
      obtain ⟨hlen, hphase, -⟩ := absorbBytes_frame h1
      rw [List.map_cons, execAll_cons ((exec_update bytes s).trans (execUpdate_of_absorbing hp (by omega) h1))]
      exact ih (hphase.trans hp) (by simp only [State.respond_engine, State.withEngine_engine]; omega) he

/-- Settles O39: both splits leave the engine that absorbing their common bytes leaves. -/
theorem streamingEquivalence : Obligations.StreamingEquivalence := by
  intro s xs ys hv hp hxy hl
  obtain ⟨e, he, -, -⟩ := absorbBytes_of_holds xs.flatten (hv.holds_tail hp)
  obtain ⟨t, ht, hte⟩ := execAll_updates_of_absorbBytes xs hp hl he
  obtain ⟨u, hu, hue⟩ := execAll_updates_of_absorbBytes ys hp (hxy ▸ hl) (hxy ▸ he)
  exact ⟨t, u, ht, hu, hte.trans hue.symm⟩

/-! ## UPDATE within the limit (R112, R113) -/

/-- A message of at least 64 bytes begins with the block of its first 64. -/
theorem blocks_of_long {m : List Byte} (h : 64 ≤ m.length) :
    completeBlocks m = blockOfList (m.take 64) (List.length_take_of_le h) :: completeBlocks (m.drop 64) ∧
    remainder m = remainder (m.drop 64) := by
  have hlen := List.length_take_of_le h
  have hblocks := completeBlocks_append_block hlen (m.drop 64)
  have hrest := remainder_append_block hlen (m.drop 64)
  rw [List.take_append_drop] at hblocks hrest
  exact ⟨hblocks, hrest⟩

/-- Settles O16: tail and bytes together hold at most one complete block. -/
theorem updateAbsorbsItsBytes : Obligations.UpdateAbsorbsItsBytes := by
  intro s bytes hv hp hwf hl
  obtain ⟨-, hle⟩ := wellFormed_update_iff.mp hwf
  have htail := hv.holds_tail hp
  have hlength : (s.engine.tail ++ bytes).length = s.engine.fill + bytes.length := by
    rw [List.length_append, htail.fill_eq]
  obtain ⟨e, he, hholds, hH⟩ := absorbBytes_of_holds bytes htail
  obtain ⟨hlen, hphase, hcause⟩ := absorbBytes_frame he
  refine ⟨e, execUpdate_of_absorbing hp hl he, hlen, hphase.trans hp, hcause, ?_, fun hlt => ?_, fun hge => ?_⟩
  · rw [hholds.fill_eq, remainder_length, hlength]
  · rw [← hlength] at hlt
    rw [completeBlocks_of_short hlt] at hH
    rw [remainder_of_short hlt] at hholds
    exact ⟨hH, hholds.tail_eq⟩
  · rw [← hlength] at hge
    obtain ⟨hblocks, hrest⟩ := blocks_of_long hge
    have hshort : ((s.engine.tail ++ bytes).drop 64).length < 64 := by
      have := hv.1
      rw [List.length_drop, hlength]
      omega
    rw [hblocks, completeBlocks_of_short hshort] at hH
    rw [hrest, remainder_of_short hshort] at hholds
    exact ⟨_, blockOfList_toList _ _, hH, hholds.tail_eq⟩

theorem fill_lt_of_absorbBytes {bs : List Byte} {e e' : Engine} (h : absorbBytes bs e = .ok e')
    (hpos : 1 ≤ bs.length) : e.fill < 64 := by
  cases bs with
  | nil => cases hpos
  | cons b bs =>
    rw [absorbBytes_cons] at h
    cases hb : absorbByte b e with
    | ok e1 => exact (absorbByte_frame hb).2.2.2.1
    | error x => rw [hb] at h; cases h

/-- UPDATE that ends in ABSORBING has absorbed its bytes. -/
theorem execUpdate_next_absorbing {bytes : List Byte} {s t : State} (h : execUpdate bytes s = .next t)
    (hp : t.engine.phase = .absorbing) :
    s.engine.phase = .absorbing ∧
      ∃ e, absorbBytes bytes s.engine = .ok e ∧ t = (s.withEngine e).respond (okResponse 0) := by
  obtain ⟨hs, rfl⟩ | ⟨-, rfl⟩ | ⟨-, -, rfl⟩ | ⟨hs, -, he⟩ := execUpdate_cases h
  · simp [hs] at hp
  · simp at hp
  · simp at hp
  · exact ⟨hs, he⟩

/-- Settles O17: byte by byte of the buffer, below the end of the block and across it. -/
theorem updateFrame : Obligations.UpdateFrame := by
  intro s t bytes hwf ht hp
  obtain ⟨hpos, hle⟩ := wellFormed_update_iff.mp hwf
  obtain ⟨hs, e, he, rfl⟩ := execUpdate_next_absorbing ht hp
  obtain ⟨hlen, -, hcause⟩ := absorbBytes_frame he
  refine ⟨hs, hcause, rfl, rfl, hlen, fun hlt => ?_, fun hge => ?_⟩
  · obtain ⟨hH, hfill, hbuf⟩ := absorbBytes_of_no_boundary he hlt
    exact ⟨hH, hfill, fun j => hbuf j j.isLt⟩
  · obtain ⟨hfill, -, hbuf⟩ := absorbBytes_of_boundary he (fill_lt_of_absorbBytes he hpos) hge hle
    exact ⟨hfill, fun j => hbuf j j.isLt⟩

/-! ## A whole block (R121) -/

theorem absorbBytes_completes_of_no_boundary {bs : List Byte} {e : Engine} (h : e.fill + bs.length < 64) :
    ∃ e', absorbBytes bs e = .ok e' := by
  induction bs generalizing e with
  | nil => exact ⟨e, rfl⟩
  | cons b bs ih =>
    rw [List.length_cons] at h
    rw [absorbBytes_cons, absorbByte_eq_ok_iff.mpr ⟨by omega, .inl ⟨by omega, rfl⟩⟩]
    exact ih (by simp only; omega)

/-- Settles O40: 63 bytes are stored, whatever the buffer held before, and the last completes the block. -/
theorem fullBlockBypassIsEquivalent : Obligations.FullBlockBypassIsEquivalent := by
  intro e block hfill
  have hsplit : block.toList = block.toList.take 63 ++ [block[63]] := by
    rw [← Vector.getElem_toList (by simp), List.take_append_getElem, List.take_of_length_le (by simp)]
  have hlt : e.fill + (block.toList.take 63).length < 64 := by simp [hfill]
  obtain ⟨e1, h1⟩ := absorbBytes_completes_of_no_boundary hlt
  obtain ⟨hH, hfill1, hbuf⟩ := absorbBytes_of_no_boundary h1 hlt
  obtain ⟨hlen, hphase, hcause⟩ := absorbBytes_frame h1
  have h63 : e1.fill = 63 := by simp [hfill1, hfill]
  have hwritten : e1.buf.set e1.fill (some block[63]) = block.map some := by
    ext j hj : 1
    simp only [Vector.getElem_set, Vector.getElem_map, hbuf j hj, h63, hfill]
    by_cases hj63 : 63 = j
    · subst hj63; rfl
    · simp [hj63, show j < 63 by omega]
  have hlast := absorbByte_eq_ok_iff.mpr ⟨by omega, .inr ⟨by omega, block, hwritten, rfl⟩⟩
  rw [hsplit, absorbBytes_append, h1]
  simp [Except.bind, absorbBytes_cons, hlast, hH, hlen, hphase, hcause, hfill, unwrittenBuffer]

/-! ## The commands phase by phase -/

/-- Settles O9: decoding comes first, and a command consumes its word. -/
theorem stepRunsTheDecodedCommand : Obligations.StepRunsTheDecodedCommand :=
  fun _ _ _ _ => step_of_command

/-- Settles O15: INIT reads nothing of the state, and its word has no ignored bit. -/
theorem initStartsANewMessage : Obligations.InitStartsANewMessage :=
  ⟨exec_init, fun _ => decode_eq_command_iff_eq_encode nofun⟩

/-- Settles O18: the length check comes before any byte is absorbed, and fault entry outside FAULTED writes PHASE and CAUSE. -/
theorem updatePastTheLimitRaisesELenOvf : Obligations.UpdatePastTheLimitRaisesELenOvf := by
  intro s bytes hp hl
  rw [exec_update, execUpdate_of_overflow hp hl, raiseFault_of_running (hp.trans_ne nofun)]
  rfl

/-- Settles O19: each command is fault entry with E_STATE, taken outside FAULTED. -/
theorem commandInTheWrongPhaseRaisesEState : Obligations.CommandInTheWrongPhaseRaisesEState := by
  intro s i h
  have hraise (hp : s.engine.phase ≠ .faulted) (hi : exec i s = .next (raiseFault .eState s)) :=
    hi.trans (congrArg _ (raiseFault_of_running hp))
  obtain ⟨hp, ⟨bytes, rfl⟩ | rfl⟩ | ⟨hp, idx, rfl⟩ := h
  · exact hraise (hp.trans_ne nofun) (execUpdate_of_finalized bytes hp)
  · exact hraise (hp.trans_ne nofun) (execFinal_of_finalized hp)
  · exact hraise (hp.trans_ne nofun) (execRddig_of_absorbing idx hp)

/-- Settles O24: RDDIG phase by phase, and its one word for each index. -/
theorem rddigReadsADigestWord : Obligations.RddigReadsADigestWord := by
  refine ⟨fun s idx => ⟨execRddig_of_finalized idx, fun hp => ?_, execRddig_of_faulted idx⟩, fun c idx => ?_⟩
  · exact commandInTheWrongPhaseRaisesEState s _ (.inr ⟨hp, idx, rfl⟩)
  · rw [← encode_rddig_eq]
    exact decode_eq_command_iff_eq_encode nofun

theorem statusWord_eq (e : Engine) :
    e.statusWord = BitVec.ofNat 32 (e.cause.code.toNat * 2 ^ 4 + e.phase.code.toNat) := by
  unfold Engine.statusWord
  cases e.cause <;> cases e.phase <;> rfl

/-- Settles O25: the STATUS word with its codes written out, and the one word of RDSTAT. -/
theorem rdstatReturnsTheStatusWord : Obligations.RdstatReturnsTheStatusWord := by
  refine ⟨fun s => ?_, fun _ => decode_eq_command_iff_eq_encode nofun⟩
  rw [exec_rdstat, execRdstat, statusWord_eq]
  cases s.engine.cause <;> cases s.engine.phase <;> rfl

/-! ## The empty message -/

/-- Settles O55, by evaluating the one compression of the padding (V1). -/
theorem digestOfTheEmptyMessage : Obligations.DigestOfTheEmptyMessage := by
  unfold Obligations.DigestOfTheEmptyMessage
  decide +kernel

end Sys2Proof.Machine
end

section
/-!
PROOFS of the family 41_message_scheduler.md: the sigma functions bit by bit, the words of the schedule, and that no step from a valid
engine stops.
-/

namespace Sys2Proof.Machine

/-! ## The sigma functions (R150, R151, R170, R171) -/

/-- Settles O47: the exclusive or of two words is taken bit by bit, and each operand is a rotation or a shift of `x`. -/
theorem sigmaFunctionsBitByBit : Obligations.SigmaFunctionsBitByBit := by
  intro x i hi
  have hrot {n : Nat} (hn : n ≤ 31) : (rotr x n).getLsbD i = x.getLsbD ((i + n) % 32) := rotr_getLsbD x hn hi
  have hshr (n : Nat) : (shr x n).getLsbD i = (decide (i + n ≤ 31) && x.getLsbD (i + n)) := by
    rw [shr_getLsbD, Bool.if_false_right]
  refine ⟨?_, ?_, ?_, ?_⟩
  · rw [smallSigma0, BitVec.getLsbD_xor, BitVec.getLsbD_xor, hrot (by decide), hrot (by decide), hshr]
  · rw [smallSigma1, BitVec.getLsbD_xor, BitVec.getLsbD_xor, hrot (by decide), hrot (by decide), hshr]
  · rw [bigSigma0, BitVec.getLsbD_xor, BitVec.getLsbD_xor, hrot (by decide), hrot (by decide), hrot (by decide)]
  · rw [bigSigma1, BitVec.getLsbD_xor, BitVec.getLsbD_xor, hrot (by decide), hrot (by decide), hrot (by decide)]

/-! ## The message schedule (R152, R153) -/

/-- A step of the second loop leaves the words already written as they are. -/
theorem scheduleUpTo_succ_of_lt (block : Block) {n i : Nat} (hi : i < 16 + n) :
    (scheduleUpTo block (n + 1))[i] = (scheduleUpTo block n)[i] :=
  Vector.getElem_push_lt hi

/-- A step of the second loop writes the next word by the recurrence. -/
theorem scheduleUpTo_succ_last (block : Block) (n : Nat) :
    (scheduleUpTo block (n + 1))[16 + n] =
      smallSigma1 (scheduleUpTo block n)[14 + n] + (scheduleUpTo block n)[9 + n] +
        smallSigma0 (scheduleUpTo block n)[1 + n] + (scheduleUpTo block n)[n] :=
  Vector.getElem_push_eq

/-- A word keeps the value it had after any step that had already written it. -/
theorem schedule_eq_scheduleUpTo (block : Block) {n i : Nat} (hn : n ≤ 48) (hi : i < 16 + n) :
    (schedule block)[i] = (scheduleUpTo block n)[i] := by
  have hkept (m : Nat) (hm : n ≤ m) : (scheduleUpTo block m)[i] = (scheduleUpTo block n)[i] := by
    induction m, hm using Nat.le_induction with
    | base => rfl
    | succ m hm ih => rw [scheduleUpTo_succ_of_lt block (by omega), ih]
  exact hkept 48 hn

/-- Settles O49: a word of the first loop is there before the second one begins, and `W[t]` is what step `t - 16` writes from words
that are already final. -/
theorem scheduleFollowsTheRecurrence : Obligations.ScheduleFollowsTheRecurrence := by
  refine fun block => ⟨fun t ht => ?_, fun t hlo hhi => ?_⟩
  · rw [schedule_eq_scheduleUpTo block (n := 0) (by decide) ht]
    exact Vector.getElem_ofFn ht
  · obtain ⟨n, rfl⟩ := Nat.exists_eq_add_of_le hlo
    have hread {i : Nat} (hi : i < 16 + n) := schedule_eq_scheduleUpTo block (by omega : n ≤ 48) hi
    rw [schedule_eq_scheduleUpTo block (n := n + 1) (by omega) (by omega), scheduleUpTo_succ_last,
      ← hread, ← hread, ← hread, ← hread]
    -- the recurrence's indices `t - 2`, `t - 7`, `t - 15`, `t - 16` at `t = 16 + n`
    congr <;> omega

/-! ## No step from a valid engine stops (R155, R177, R235) -/

/-- A model stop is one of absorbing or finalizing in ABSORBING, where the buffer of a valid engine holds exactly its tail and the length
fits its field. -/
theorem exec_goesOn_of_valid (i : Instr) {s : State} (hv : s.engine.Valid) : GoesOn (exec i s) := by
  cases h : exec i s with
  | next t => exact ⟨t, rfl⟩
  | fault x =>
    obtain ⟨hp, ⟨bytes, -, -, herror⟩ | ⟨-, herror⟩⟩ := exec_eq_fault_iff.mp h
    · obtain ⟨e, he, -⟩ := absorbBytes_of_holds bytes (hv.holds_tail hp)
      cases he.symm.trans herror
    · have ⟨_, hlen, _⟩ := hv
      obtain ⟨e, he, -⟩ := finalize_of_holds (hv.holds_tail hp) (hv.len_mod hp) (bitLength_lt hlen)
      cases he.symm.trans herror
  | refused r => exact absurd h (exec_ne_refused i s r)

/-- Settles O35, by the host's next action; a command finds the engine as the step did. -/
theorem validEngineNeverStops : Obligations.ValidEngineNeverStops := by
  intro s hv
  match hs : s.pending with
  | [] => exact ⟨_, step_of_idle hs⟩
  | .hardwareReset :: rest => exact ⟨_, step_of_reset hs⟩
  | .command c :: rest =>
    cases hc : decode c with
    | illegal why => exact ⟨_, step_of_illegal hs hc⟩
    | command i =>
      rw [step_of_command hs hc]
      exact exec_goesOn_of_valid i hv

end Sys2Proof.Machine
end

section
/-!
PROOFS of the family 42_compression.md: choose and majority bit by bit, the 64 rounds of Compress one after another, and that grouping
the rounds changes nothing.
-/

namespace Sys2Proof.Machine

/-! ## Choose and majority (R172, R173) -/

theorem choose_getLsbD (x y z : Word) {i : Nat} (hi : i < 32) :
    (choose x y z).getLsbD i = if x.getLsbD i then y.getLsbD i else z.getLsbD i := by
  rw [choose, BitVec.getLsbD_xor, BitVec.getLsbD_and, BitVec.getLsbD_and, BitVec.getLsbD_not, decide_eq_true hi]
  cases x.getLsbD i <;> simp

theorem majority_getLsbD (x y z : Word) (i : Nat) :
    (majority x y z).getLsbD i =
      decide (2 ≤ (x.getLsbD i).toNat + (y.getLsbD i).toNat + (z.getLsbD i).toNat) := by
  have htable : ∀ a b c : Bool,
      ((a && b) ^^ (a && c) ^^ (b && c)) = decide (2 ≤ a.toNat + b.toNat + c.toNat) := by decide
  rw [majority, BitVec.getLsbD_xor, BitVec.getLsbD_xor, BitVec.getLsbD_and, BitVec.getLsbD_and, BitVec.getLsbD_and, htable]

/-- Settles O48: both functions act bit by bit, and on single bits they are a choice by `x` and a table of eight rows. -/
theorem chooseAndMajorityBitByBit : Obligations.ChooseAndMajorityBitByBit :=
  fun x y z i hi => ⟨choose_getLsbD x y z hi, majority_getLsbD x y z i⟩

/-! ## The rounds (R174 to R176) -/

/-- The working variables after the rounds of a list, performed in its order. `performRounds_take` ties it to the model's rolled loop. -/
def performRounds (W : Vector Word 64) (rounds : List (Fin 64)) (v : Working) : Working :=
  rounds.foldl (fun x t => roundStep x roundConstants[t] W[t]) v

theorem performRounds_take_succ (W : Vector Word 64) (v : Working) {t : Nat} (ht : t < 64) :
    performRounds W ((List.finRange 64).take (t + 1)) v =
      roundStep (performRounds W ((List.finRange 64).take t) v) roundConstants[t] W[t] := by
  have hsnoc : (List.finRange 64).take (t + 1) = (List.finRange 64).take t ++ [⟨t, ht⟩] := by
    rw [← List.take_concat_get' _ t (by simpa using ht), List.getElem_finRange, Fin.cast_mk]
  rw [hsnoc, performRounds, List.foldl_append]
  rfl

/-- The first `n` rounds, performed in order, are the loop of R175 up to `n`. -/
theorem performRounds_take (W : Vector Word 64) (v : Working) {n : Nat} (hn : n ≤ 64) :
    performRounds W ((List.finRange 64).take n) v = roundsUpTo W v n hn := by
  induction n with
  | zero => rfl
  | succ n ih => rw [performRounds_take_succ W v hn, ih, roundsUpTo]

theorem performRounds_flatten (W : Vector Word 64) (groups : List (List (Fin 64))) (v : Working) :
    performRounds W groups.flatten v = groups.foldl (fun w group => performRounds W group w) v :=
  List.foldl_flatten

/-- Settles O50: `v t` is what the first `t` rounds, performed in order, make of `Hin`. -/
theorem compressIsSixtyFourRounds : Obligations.CompressIsSixtyFourRounds := by
  intro Hin block
  refine ⟨fun t => performRounds (schedule block) ((List.finRange 64).take t) (Working.ofDigestState Hin),
    rfl, fun t ht => performRounds_take_succ _ _ ht, ?_⟩
  simp only [performRounds_take _ _ (Nat.le_refl 64), compress]

/-- Settles O51: group after group is the same list of rounds, one at a time. -/
theorem unrollingIsNotObservable : Obligations.UnrollingIsNotObservable := by
  intro W v groups hgroups
  calc groups.foldl (fun w group => performRounds W group w) v
      = performRounds W groups.flatten v := (performRounds_flatten W groups v).symm
    _ = performRounds W (List.finRange 64) v := by rw [hgroups]
    _ = roundsUpTo W v 64 (Nat.le_refl 64) := performRounds_take W v (Nat.le_refl 64)

end Sys2Proof.Machine
end

section
/-!
PROOFS of the family 43_padding_finalizer.md: the padding, FINAL with one and with two compressions, the digest state it leaves,
the compressions a message costs, and the digest bytes.
-/

namespace Sys2Proof.Machine

/-! ## The padding (R200) -/

/-- The number a list of bytes writes, most significant byte first. -/
def bigEndianValue (bytes : List Byte) : Nat := bytes.foldl (fun acc b => acc * 256 + b.toNat) 0

theorem bigEndianValue_concat (bytes : List Byte) (b : Byte) :
    bigEndianValue (bytes ++ [b]) = bigEndianValue bytes * 256 + b.toNat := List.foldl_concat ..

/-- The first `k` bytes of a double word are its high `8 * k` bits. -/
theorem bigEndianValue_take_bytes64 (d : BitVec 64) {k : Nat} (hk : k ≤ 8) :
    bigEndianValue ((bytes64 d).toList.take k) = d.toNat / 2 ^ (64 - 8 * k) := by
  induction k with
  | zero => exact (Nat.div_eq_of_lt d.isLt).symm
  | succ k ih =>
    have hbyte : ((bytes64 d)[k]).toNat = d.toNat / 2 ^ (56 - 8 * k) % 256 := by
      rw [← Fin.getElem_fin (i := ⟨k, hk⟩), bytes64_get, BitVec.toNat_ofNat]
    have hhigh : d.toNat / 2 ^ (64 - 8 * k) = d.toNat / 2 ^ (56 - 8 * k) / 256 := by
      rw [Nat.div_div_eq_div_mul, show 64 - 8 * k = 56 - 8 * k + 8 by omega, Nat.pow_add]
    rw [← List.take_concat_get' _ k (by simpa using hk), bigEndianValue_concat, ih (by omega), Vector.getElem_toList,
      hbyte, hhigh, Nat.div_add_mod', show 64 - 8 * (k + 1) = 56 - 8 * k by omega]

theorem bigEndianValue_bytes64 (d : BitVec 64) : bigEndianValue (bytes64 d).toList = d.toNat := by
  have hall := bigEndianValue_take_bytes64 d (Nat.le_refl 8)
  rwa [List.take_of_length_le (by simp), Nat.mul_comm, Nat.sub_self, Nat.pow_zero, Nat.div_one] at hall

/-- The length field of the padding reads back as the bit length. -/
theorem bigEndianValue_lengthField {L : Nat} (hL : L ≤ Config.maxLen) :
    bigEndianValue (bytes64 (BitVec.ofNat 64 (8 * L))).toList = 8 * L := by
  rw [bigEndianValue_bytes64, BitVec.toNat_ofNat, Nat.mod_eq_of_lt (bitLength_lt hL)]

/-- Settles O52: the zero fill is the one residue below 64 that completes the block. -/
theorem paddingIsMinimal : Obligations.PaddingIsMinimal := by
  intro L hL
  have hlt := zeroCount_lt L
  have hmod := zeroCount_add L
  refine ⟨zeroCount L, Nat.le_of_lt_succ hlt, hmod, rfl, pad_length L, ?_, fun M hM hle => ?_,
    bigEndianValue_lengthField hL⟩
  · rw [pad_length]
    omega
  · rw [pad_length]
    omega

/-! ## FINAL (R116, R201, R202) -/

/-- The bit length of a valid engine fits the length field (R28). -/
theorem Engine.Valid.bitLength_lt {e : Engine} (hv : e.Valid) : 8 * e.len < 2 ^ 64 := by
  obtain ⟨-, hLen, -⟩ := hv
  exact Machine.bitLength_lt hLen

/-- Settles O21: the buffer holds the tail, and Finalize completes it to one block. -/
theorem finalWithRoomCompressesOnce : Obligations.FinalWithRoomCompressesOnce := by
  intro s hv hp hroom
  have htail := hv.holds_tail hp
  rw [htail.fill_eq] at hroom
  exact ⟨_, blockOfList_toList _ (tail_pad_length_of_room (hv.len_mod hp) hroom),
    execFinal_of_absorbing hp (finalize_of_room htail (hv.len_mod hp) hv.bitLength_lt hroom)⟩

/-- Settles O22: the tail and the terminator fill the first block, and zeros and the length field are the second. -/
theorem finalWithoutRoomCompressesTwice : Obligations.FinalWithoutRoomCompressesTwice := by
  intro s hv hp hroom
  have htail := hv.holds_tail hp
  rw [htail.fill_eq] at hroom
  refine ⟨_, _, ?_, blockOfList_toList _ (twoBlockSecond_length s.engine.len),
    execFinal_of_absorbing hp (finalize_of_no_room htail hv.bitLength_lt hroom)⟩
  rw [blockOfList_toList, blockOfList_toList, tail_pad_of_no_room (hv.len_mod hp) hroom]

/-- Finalize with room for the length field stores nothing below FILL. -/
theorem finalize_keeps_message_bytes {e e' : Engine} (h : finalize e = .ok e') (hroom : e.fill ≤ 55) {j : Nat}
    (hj : j < e.fill) : e'.buf[j] = e.buf[j] := by
  obtain ⟨_, -, ⟨-, block, hblock, rfl⟩ | ⟨hge, -⟩⟩ := finalize_eq_ok_iff.mp h
  · rw [← hblock, writeLength_get, dif_neg (by omega), zeroFill_get, if_neg (by omega),
      Vector.getElem_set_ne _ _ (by omega)]
  · omega

/-- Settles O23: FINAL that goes on has run Finalize, and with room that stores only at FILL and above. -/
theorem finalFrame : Obligations.FinalFrame := by
  intro s t hp ht
  obtain ⟨e, he, rfl⟩ := execFinal_next_of_absorbing ht hp
  obtain ⟨hlen, -, hcause, hfill⟩ := finalize_frame he
  exact ⟨hlen, hcause, rfl, hfill, rfl, rfl, fun hroom _ => finalize_keeps_message_bytes he hroom⟩

/-! ## The digest state (R203) -/

/-- Settles O38, from what Finalize does to an engine that holds its tail, and to one that has absorbed a message. -/
theorem finalLeavesTheMessageDigest : Obligations.FinalLeavesTheMessageDigest := by
  refine ⟨fun s hv hp => ?_, fun s m => exec_final_absorbedEngine⟩
  obtain ⟨e, he, hH⟩ := finalize_of_holds (hv.holds_tail hp) (hv.len_mod hp) hv.bitLength_lt
  exact ⟨_, execFinal_of_absorbing hp he, hH⟩

/-! ## The compressions a message costs (R206) -/

/-- INIT and UPDATEs leave the engine that has absorbed their bytes, from every state. -/
theorem execAll_init_updates (s : State) (pieces : List (List Byte)) (hl : pieces.flatten.length ≤ Config.maxLen) :
    ∃ t, execAll (.init :: pieces.map .update) s = .next t ∧ t.engine = absorbedEngine pieces.flatten := by
  rw [execAll_cons (exec_init s)]
  exact execAll_updates_of_absorbBytes pieces rfl ((Nat.zero_add _).trans_le hl)
    (initEngine_eq_absorbedEngine ▸ absorbBytes_absorbedEngine [] pieces.flatten)

/-- Settles O56: the complete blocks of the message come first among those of the padded one, and FINAL compresses the rest. -/
theorem eachBlockIsCompressedOnce : Obligations.EachBlockIsCompressedOnce := by
  intro s updates hl m
  obtain ⟨t, ht, hte⟩ := execAll_init_updates s updates hl
  obtain ⟨buf, hu⟩ := exec_final_absorbedEngine hte hl
  have hsplit := (completeBlocks_append m (pad m.length)).1
  obtain ⟨habsorbed, hpadded⟩ := blockCountOfAMessage m
  refine ⟨t, _, completeBlocks m, completeBlocks (remainder m ++ pad m.length), ht, hu, ?_, ?_, hsplit.symm, habsorbed, ?_⟩
  · rw [hte]
    rfl
  · rw [hte]
    exact chainingValue_append m (pad m.length)
  · rw [hsplit, List.length_append, habsorbed] at hpadded
    exact Nat.add_left_cancel hpadded

/-! ## The digest bytes (R204) -/

@[simp] theorem bytes32_length (w : Word) : (bytes32 w).length = 4 := rfl

theorem bytes32_getElem? (w : Word) (j : Fin 4) : (bytes32 w)[j.val]? = some (w.extractLsb' (24 - 8 * j.val) 8) := by
  fin_cases j <;> rfl

/-- Every word before word `i` gives four bytes. -/
theorem flatMap_bytes32_getElem? {ws : List Word} {i : Nat} (hi : i < ws.length) (j : Fin 4) :
    (ws.flatMap bytes32)[4 * i + j.val]? = (bytes32 ws[i])[j.val]? := by
  induction ws generalizing i with
  | nil => cases hi
  | cons w ws ih =>
    rw [List.flatMap_cons]
    cases i with
    | zero => rw [Nat.mul_zero, Nat.zero_add, List.getElem?_append_left (by simp)]; rfl
    | succ i =>
      rw [List.getElem?_append_right (by rw [bytes32_length]; omega), bytes32_length,
        show 4 * (i + 1) + j.val - 4 = 4 * i + j.val by omega, ih (Nat.lt_of_succ_lt_succ hi), List.getElem_cons_succ]

/-- Settles O54: byte `4i + j` is byte `j` of word `i`. -/
theorem digestSerialization : Obligations.DigestSerialization := by
  refine fun H => ⟨by simp [digestBytes, List.length_flatMap], fun i j => ?_⟩
  rw [digestBytes, flatMap_bytes32_getElem? (by simp) j, bytes32_getElem?, Vector.getElem_toList, Fin.getElem_fin]

end Sys2Proof.Machine
end

section
/-!
PROOFS of the family 60_exceptions.md: how an instance leaves FAULTED, what a FAULTED instance answers, and the idle instance.
-/

namespace Sys2Proof.Machine

/-! ## Leaving FAULTED (R236) -/

/-- Settles O29: of the writers of PHASE, FINAL starts in ABSORBING and fault entry outside FAULTED; reset and INIT remain. -/
theorem onlyInitAndResetLeaveFaulted : Obligations.OnlyInitAndResetLeaveFaulted := by
  intro s t hs ht hleft
  obtain ⟨hphase, -⟩ := onlyTheseWritePhaseAndCause s t ht
  obtain hreset | ⟨habsorbing, -⟩ | ⟨-, hrunning, -⟩ := hphase (hs ▸ hleft)
  · exact hreset
  · cases hs.symm.trans habsorbing
  · exact absurd hs hrunning

/-! ## The idle instance (R246, log entry 3) -/

/-- Settles O12: the step takes an action only when one is pending. -/
theorem idleInstanceKeepsItsState : Obligations.IdleInstanceKeepsItsState := fun _ => step_of_idle

/-! ## Commands in FAULTED (R234) -/

theorem exec_of_faulted {i : Instr} {s : State} (hp : s.engine.phase = .faulted) (hinit : i ≠ .init)
    (hrdstat : i ≠ .rdstat) : exec i s = .next (rejectCommand s) := by
  cases i with
  | init => exact absurd rfl hinit
  | update bytes => exact execUpdate_of_faulted bytes hp
  | final => exact execFinal_of_faulted hp
  | rddig idx => exact execRddig_of_faulted idx hp
  | rdstat => exact absurd rfl hrdstat

theorem issueCommand_of_illegal {c : CommandWord} {why : IllegalReason} (s : State) (hc : decode c = .illegal why) :
    issueCommand c s = .next (raiseFault .eIllegal s) := by
  rw [issueCommand, hc, execIllegal]

/-- Settles O20: an ILLEGAL word raises E_ILLEGAL, which in FAULTED keeps the first cause and so the engine. -/
theorem faultedInstanceRejectsCommands : Obligations.FaultedInstanceRejectsCommands := by
  refine fun s hp => ⟨fun i => exec_of_faulted hp, fun c why hc => ?_, exec_init s, exec_rdstat s⟩
  rw [issueCommand_of_illegal s hc, raiseFault_of_faulted hp]
  rfl

end Sys2Proof.Machine
end

section
/-!
PROOFS of the family 70_reset_and_hazards.md: hardware reset leaves the engine INIT leaves.
-/

namespace Sys2Proof.Machine

/-- Settles O11: the step puts the engine of reset in place and appends no response, and INIT leaves the same engine. -/
theorem hardwareResetGivesTheResetState : Obligations.HardwareResetGivesTheResetState := by
  intro s rest hs
  have hbuf (j : Fin 64) : Engine.reset.buf[j] = none := unwrittenBuffer_get j j.isLt
  obtain ⟨hinit, -⟩ := initStartsANewMessage
  exact ⟨Engine.reset, step_of_reset hs, Engine.reset_h, Engine.reset_fill, Engine.reset_len, Engine.reset_phase,
    Engine.reset_cause, hbuf, hinit, rfl⟩

end Sys2Proof.Machine
end
